-- ==== Sys2Proof/Word.lean ====
section
/-!
DEFINITION. The plain data of the engine (spec/00_scope.md R8): bytes, byte strings, words of four bytes, blocks,
keys, nonces, schedules and the state matrix. Types only: what is computed with them is in Machine/.
-/

namespace Sys2Proof

/-- A byte, R8: bit 7 is the most significant one. -/
abbrev Byte := BitVec 8

/-- A byte string, R8: a finite sequence of bytes indexed from 0. -/
abbrev Bytes := List Byte

/-- A u64, R8. -/
abbrev U64 := BitVec 64

/-- A word, R8: the byte string `[b0, b1, b2, b3]`. It is never an integer, so it has no endianness. -/
structure Word where
  b0 : Byte
  b1 : Byte
  b2 : Byte
  b3 : Byte
  deriving DecidableEq, Repr

/-- The state matrix `S` of R19 by its four columns: `S[r][c]` is byte `r` of column `c`. -/
structure StateMatrix where
  c0 : Word
  c1 : Word
  c2 : Word
  c3 : Word
  deriving DecidableEq, Repr

/-- A block, R8: exactly 16 bytes (`BLOCKBYTES`, R6). -/
abbrev Block := Vector Byte 16

/-- A key: exactly 32 bytes (`KEYBYTES`, R6). -/
abbrev Key := Vector Byte 32

/-- A nonce as the register, the counter block and the wire format hold it: exactly 8 bytes (`NONCEBYTES`, R6, R12). -/
abbrev Nonce := Vector Byte 8

/-- A key schedule: exactly 60 words (`NW`, R6, R11). -/
abbrev Schedule := Vector Word 60

end Sys2Proof
end

