-- ==== Sys2Proof/Config.lean ====
section
/-!
DEFINITION. The open and decided parameters of spec/00_scope.md R7 as plain data, with the defaults that R7 gives.
They are fixed for one machine (log entry 5): State carries them and no step writes them.
-/

namespace Sys2Proof

/-- `STRIP_SCOPE` (R7, spec/43_ctr_wrapper.md R93, spec/92_eei_decisions.md D14). -/
inductive StripScope where
  /-- The default, the source's words: at most the last block is shortened. -/
  | finalBlock
  /-- The alternative: zero bytes are stripped from the end of the whole message. -/
  | wholeMessage
  deriving DecidableEq, Repr

/-- Which predicate `ValidText` is (R7, R92, D13). -/
inductive TextCheck where
  /-- The default: well-formed UTF-8, R92. -/
  | utf8
  /-- Any other predicate on byte strings: number `n` of the free family `Config.otherValidText` (log entry 6). -/
  | other (n : Nat)
  deriving DecidableEq, Repr

/-- The parameters of R7. -/
structure Config where
  /-- `MAX_OPERAND_BYTES`: `none` is "unbounded". -/
  maxOperandBytes : Option Nat
  /-- `ValidText`. -/
  validText : TextCheck
  /-- `STRIP_SCOPE`. -/
  stripScope : StripScope
  /-- `B64_REJECT_NONCANONICAL`. -/
  b64RejectNoncanonical : Bool
  deriving DecidableEq, Repr

/-- The defaults of R7: unbounded operands, UTF-8, `final_block`, and nonzero unused bits rejected. -/
def Config.default : Config :=
  { maxOperandBytes := none, validText := .utf8, stripScope := .finalBlock, b64RejectNoncanonical := true }

/-- FREE VALUE (log entry 6): the predicates `ValidText` may be other than UTF-8. R92 makes `ValidText` a parameter and
fixes the default only; nothing in Lean can evaluate this family or prove a value of it. -/
opaque Config.otherValidText : Nat → Bytes → Bool

end Sys2Proof
end

