-- ==== Sys2Proof/Machine/State.lean ====
section
/-!
DEFINITION. The state of one engine instance with its command port, the statuses and responses, the reasons a step can
stop, and the state after reset (spec/10_state.md R10, R22; spec/30_encoding.md R37; spec/60_exceptions.md R106).
-/

namespace Sys2Proof.Machine

/-- The statuses of R106, one constructor each. -/
inductive Status where
  | ok
  | passthru
  | eIllegal
  | eLength
  | eNokey
  | eNoctr
  | eB64
  | eHeader
  | eRagged
  deriving DecidableEq, Repr

/-- A response, R37: its status and its result bytes. -/
structure Response where
  status : Status
  result : Bytes
  deriving DecidableEq, Repr

/-- What the host delivers to an engine: a command, whole and with its length (R37), or the reset event (R131). -/
inductive HostEvent where
  | command (cmd : Bytes)
  | reset
  deriving DecidableEq, Repr

/-- The reasons the machine stops with a fault: there are none. Every fault of the spec is a command that completes
with an error status, after which the next command runs (R118, R119); so this type has no constructor. Safe. -/
inductive Fault where
  deriving DecidableEq, Repr

/-- The reasons a step has no meaning. -/
inductive Refusal where
  /-- Raised by an arm of `exec` whose instruction has no meaning yet; no arm raises it. Safe: the model would stop
  where the engine goes on. -/
  | notModelled (mnemonic : String)
  deriving DecidableEq, Repr

/-- The state: the registers and flags of R10, the parameters of R7, and the port's two directions. -/
structure State where
  /-- The parameters of R7 (log entry 5). No step writes them. -/
  config : Config
  /-- `W[0..59]`, R11; absent until a key is loaded, R22, R23 (log entry 1). -/
  w : Option Schedule
  /-- The bits of `NONCE`, R12; none until a stream is started (log entry 1). The register is `State.nonce`, which is
  absent while `CV = 0` (R23, log entry 7). -/
  nonceBits : Option Nonce
  /-- The bits of `CTR`, R13; none until a stream is started (log entry 1). The register is `State.ctr`, which is
  absent while `CV = 0` (R23, log entry 7). -/
  ctrBits : Option U64
  /-- `WV`, R14. -/
  wv : Bool
  /-- `CV`, R14. -/
  cv : Bool
  /-- What the host will deliver, first event first (R48, R131; log entry 2). -/
  pending : List HostEvent
  /-- The responses given so far, oldest first, one per command (R37; log entry 3). -/
  responses : List Response
  deriving DecidableEq, Repr

/-- The state after reset, R22: both flags 0, the registers without value, the parameters at the defaults of R7,
nothing delivered and nothing answered. -/
def State.reset : State :=
  { config := Config.default
    w := none
    nonceBits := none
    ctrBits := none
    wv := false
    cv := false
    pending := []
    responses := [] }

end Sys2Proof.Machine
end

