-- ==== Sys2Proof/Machine/Flags.lean ====
section
/-!
DEFINITION. The flags and their views: `STATUS` (spec/10_state.md R16), the status codes (spec/60_exceptions.md R106)
and the advance of the block index with its effect on `CV` (spec/43_ctr_wrapper.md R89).
-/

namespace Sys2Proof.Machine

/-- A flag as the number 0 or 1. -/
def flagByte (flag : Bool) : Byte :=
  if flag then 1 else 0

/-- `STATUS = (CV << 1) | WV`, R16, R122. -/
def statusByte (wv cv : Bool) : Byte :=
  (flagByte cv <<< 1) ||| flagByte wv

/-- The code of a status, R106. -/
def statusCode : Status → Byte
  | .ok => 0x00
  | .passthru => 0x01
  | .eIllegal => 0x80
  | .eLength => 0x81
  | .eNokey => 0x82
  | .eNoctr => 0x83
  | .eB64 => 0x84
  | .eHeader => 0x85
  | .eRagged => 0x86

/-- A status is an error exactly when bit 7 of its code is 1, R106. -/
def statusIsError (st : Status) : Bool :=
  (statusCode st).getLsbD 7

/-- A response as the byte string on the port: the status code, then the result (R37). -/
def responseBytes (r : Response) : Bytes :=
  statusCode r.status :: r.result

/-- The next block index, `(CTR + 1) mod 2^64` (R89). -/
def nextIndex (ctr : U64) : U64 :=
  ctr + 1

/-- `CV` after an advance to the index `next`: cleared when the index space is used up (R89). -/
def cvAfterAdvance (next : U64) (cv : Bool) : Bool :=
  if next = 0 then false else cv

end Sys2Proof.Machine
end

