-- ==== Sys2Proof/Machine/Ops.lean ====
section
/-!
DEFINITION. The named operations over the registers and the port: guarded reads, whole-register writes, the response
of a command, raising an error (spec/60_exceptions.md R118) and the reset event (spec/70_reset_and_hazards.md R131).

THE SPEC'S EXCEPTION is `raise`: one response byte, no register and no flag changed (R9, R118). There is no return from
it: nothing is saved, and the next command runs normally (R119).
-/

namespace Sys2Proof.Machine

/-- The outcome of one command. -/
abbrev Result := Host.Outcome State Fault Refusal

/-- The registers a stream of blocks works on: `NONCE`, `CTR` and `CV`. -/
structure Stream where
  nonce : Nonce
  ctr : U64
  cv : Bool
  deriving DecidableEq, Repr

/-- The schedule a command may use: `W` while `WV = 1` (R14, R109). -/
def schedule? (s : State) : Option Schedule :=
  if s.wv then s.w else none

/-- The register `NONCE`: absent while `CV = 0`, before the first stream and after the index space is used up alike
(R23; spec/93_implementation_defined.md U2, U14; log entry 7). Every read of `NONCE` goes through here. -/
def State.nonce (s : State) : Option Nonce :=
  if s.cv then s.nonceBits else none

/-- The register `CTR`: absent while `CV = 0` (R23, U2, U14; log entry 7). Every read of `CTR` goes through here. -/
def State.ctr (s : State) : Option U64 :=
  if s.cv then s.ctrBits else none

/-- The stream a command may continue: `NONCE` and `CTR` where they are present, that is while `CV = 1` (R14, R23,
R110). -/
def stream? (s : State) : Option Stream :=
  match s.nonce, s.ctr with
  | some n, some i => some { nonce := n, ctr := i, cv := true }
  | _, _ => none

/-- Writes all 60 words of `W` and sets `WV` (R11, R67, R85). -/
def putSchedule (W : Schedule) (s : State) : State :=
  { s with w := some W, wv := true }

/-- Writes `NONCE`, `CTR` and `CV`. With `CV` cleared the registers are absent (R23) and their bits hold what R89 assigned. -/
def putStream (st : Stream) (s : State) : State :=
  { s with nonceBits := some st.nonce, ctrBits := some st.ctr, cv := st.cv }

/-- A stream just started: the nonce's bytes, index 0, `CV = 1` (R87, R90). -/
def startStream (nonce : Nonce) : Stream :=
  { nonce := nonce, ctr := 0, cv := true }

/-- Gives the response of the command being executed (R37: one command, one response). -/
def respond (st : Status) (result : Bytes) (s : State) : State :=
  { s with responses := s.responses ++ [{ status := st, result := result }] }

/-- `return (status, result)` of R9. -/
def finish (st : Status) (result : Bytes) (s : State) : Result :=
  .next (respond st result s)

/-- `raise` of R9, R118: the error's one-byte response, and no register or flag changed. -/
def raise (st : Status) (s : State) : Result :=
  finish st [] s

/-- The reset event, R131, R22: the flags cleared, the registers without value. The parameters and what the port has
carried are not the engine's registers and stay (log entry 4). -/
def resetEngine (s : State) : State :=
  { s with w := none, nonceBits := none, ctrBits := none, wv := false, cv := false }

/-- Takes the first pending event off the port. -/
def takeEvent (rest : List HostEvent) (s : State) : State :=
  { s with pending := rest }

/-- The next event delivered is the command `cmd`; what was pending comes after it. -/
def presentCommand (cmd : Bytes) (s : State) : State :=
  { s with pending := .command cmd :: s.pending }

end Sys2Proof.Machine
end

