-- ==== Sys2Proof/Machine/Base64.lean ====
section
/-!
DEFINITION. Base64 and the commands B64ENC and B64DEC (spec/44_base64.md).
-/

namespace Sys2Proof.Machine

/-- The padding character `=`, R97. -/
def padChar : Byte := 0x3D

/-- `enc6(v)`, R97: the ASCII code of the 6-bit value `v`. -/
def enc6 (v : BitVec 6) : Byte :=
  if v.toNat ≤ 25 then 0x41 + v.setWidth 8
  else if v.toNat ≤ 51 then 0x61 + (v.setWidth 8 - 26)
  else if v.toNat ≤ 61 then 0x30 + (v.setWidth 8 - 52)
  else if v.toNat = 62 then 0x2B
  else 0x2F

/-- `dec6(ch)`, R97: defined for the 64 codes of the alphabet only. -/
def dec6 (ch : Byte) : Option (BitVec 6) :=
  if 0x41 ≤ ch.toNat ∧ ch.toNat ≤ 0x5A then some ((ch - 0x41).setWidth 6)
  else if 0x61 ≤ ch.toNat ∧ ch.toNat ≤ 0x7A then some ((ch - 0x61 + 26).setWidth 6)
  else if 0x30 ≤ ch.toNat ∧ ch.toNat ≤ 0x39 then some ((ch - 0x30 + 52).setWidth 6)
  else if ch = 0x2B then some 62
  else if ch = 0x2F then some 63
  else none

/-- The 24 bits of a group, `b0` most significant, as four characters (R98). -/
def encodeGroup (b0 b1 b2 : Byte) : Byte × Byte × Byte × Byte :=
  let v : BitVec 24 := b0 ++ b1 ++ b2
  (enc6 (v.extractLsb' 18 6), enc6 (v.extractLsb' 12 6), enc6 (v.extractLsb' 6 6), enc6 (v.extractLsb' 0 6))

/-- `Base64Enc(d)`, R98: groups of three bytes, the last one of one, two or three. -/
def base64Enc : Bytes → Bytes
  | [] => []
  | [b0] =>
    let (c0, c1, _, _) := encodeGroup b0 0x00 0x00
    [c0, c1, padChar, padChar]
  | [b0, b1] =>
    let (c0, c1, c2, _) := encodeGroup b0 b1 0x00
    [c0, c1, c2, padChar]
  | b0 :: b1 :: b2 :: rest =>
    let (c0, c1, c2, c3) := encodeGroup b0 b1 b2
    c0 :: c1 :: c2 :: c3 :: base64Enc rest

/-- A group with no padding, R99: 24 bits, three bytes. -/
def decodeFull (q0 q1 q2 q3 : Byte) : Option Bytes :=
  match dec6 q0, dec6 q1, dec6 q2, dec6 q3 with
  | some v0, some v1, some v2, some v3 =>
    let v : BitVec 24 := v0 ++ v1 ++ v2 ++ v3
    some [v.extractLsb' 16 8, v.extractLsb' 8 8, v.extractLsb' 0 8]
  | _, _, _, _ => none

/-- A group with one padding character, R99: 18 bits, two bytes; nonzero unused bits fail if `reject`. -/
def decodePad1 (reject : Bool) (q0 q1 q2 : Byte) : Option Bytes :=
  match dec6 q0, dec6 q1, dec6 q2 with
  | some v0, some v1, some v2 =>
    let v : BitVec 18 := v0 ++ v1 ++ v2
    if reject ∧ v.extractLsb' 0 2 ≠ 0 then none
    else some [v.extractLsb' 10 8, v.extractLsb' 2 8]
  | _, _, _ => none

/-- A group with two padding characters, R99: 12 bits, one byte; nonzero unused bits fail if `reject`. -/
def decodePad2 (reject : Bool) (q0 q1 : Byte) : Option Bytes :=
  match dec6 q0, dec6 q1 with
  | some v0, some v1 =>
    let v : BitVec 12 := v0 ++ v1
    if reject ∧ v.extractLsb' 0 4 ≠ 0 then none
    else some [v.extractLsb' 4 8]
  | _, _ => none

/-- The last group of a text, R99: one `=` in its last position pads one byte, `==` two. -/
def decodeLast (reject : Bool) (q0 q1 q2 q3 : Byte) : Option Bytes :=
  if q3 = padChar then
    if q2 = padChar then decodePad2 reject q0 q1 else decodePad1 reject q0 q1 q2
  else decodeFull q0 q1 q2 q3

/-- `Base64Dec(t)`, R99; `none` is the decode failure. `reject` is `B64_REJECT_NONCANONICAL`. -/
def base64Dec (reject : Bool) : Bytes → Option Bytes
  | [] => some []
  | [q0, q1, q2, q3] => decodeLast reject q0 q1 q2 q3
  | q0 :: q1 :: q2 :: q3 :: rest =>
    match decodeFull q0 q1 q2 q3, base64Dec reject rest with
    | some head, some tail => some (head ++ tail)
    | _, _ => none
  | _ => none

/-- `B64ENC data`, R100. -/
def execB64enc (data : Bytes) (s : State) : Result :=
  finish .ok (base64Enc data) s

/-- `B64DEC text`, R101. -/
def execB64dec (text : Bytes) (s : State) : Result :=
  match base64Dec s.config.b64RejectNoncanonical text with
  | none => raise .eB64 s
  | some d => finish .ok d s

end Sys2Proof.Machine
end

