-- ==== Sys2Proof/Syntax.lean ====
section
/-!
DEFINITION. The ten commands of command set 1 (spec/30_encoding.md R39), one constructor per row of
spec/opcode_table.json, with the fields R38 gives its format.
-/

namespace Sys2Proof

/-- A command. Fields whose length the format fixes (R38) carry that length in their type. -/
inductive Instr where
  /-- `0x01 SETKEY key`, format K, R67. -/
  | setkey (key : Key)
  /-- `0x02 ENCBLK block`, format B, R80. -/
  | encblk (block : Block)
  /-- `0x03 DERIVE pw`, format V, R85. -/
  | derive (pw : Bytes)
  /-- `0x04 CTRINIT nonce`, format N, R87. -/
  | ctrinit (nonce : Nonce)
  /-- `0x05 CTRBLK block`, format B, R88. -/
  | ctrblk (block : Block)
  /-- `0x06 ENCMSG nonce, pt`, format M, R91. -/
  | encmsg (nonce : Nonce) (pt : Bytes)
  /-- `0x07 DECMSG text`, format V, R94. -/
  | decmsg (text : Bytes)
  /-- `0x08 B64ENC data`, format V, R100. -/
  | b64enc (data : Bytes)
  /-- `0x09 B64DEC text`, format V, R101. -/
  | b64dec (text : Bytes)
  /-- `0x0A RDSTAT`, format Z, R122. -/
  | rdstat
  deriving DecidableEq, Repr

/-- The six command formats of R38. -/
inductive Format where
  /-- `op`, exactly 1 byte. -/
  | z
  /-- `op || key`, exactly 33 bytes. -/
  | k
  /-- `op || block`, exactly 17 bytes. -/
  | b
  /-- `op || nonce`, exactly 9 bytes. -/
  | n
  /-- `op || data`, 1 byte or more. -/
  | v
  /-- `op || nonce || data`, 9 bytes or more. -/
  | m
  deriving DecidableEq, Repr

end Sys2Proof
end

