-- ==== Sys2Proof/WellFormed.lean ====
section
/-!
DEFINITION. Which commands are well formed under given parameters. The lengths R38 fixes are in the types of Instr's
fields, so the one check left is `MAX_OPERAND_BYTES` (spec/30_encoding.md R42).
-/

namespace Sys2Proof

/-- The number of bytes of a command's operand, `cmd[1..len)` (R37, R38). -/
def Instr.operandLength : Instr → Nat
  | .setkey _ => 32
  | .encblk _ => 16
  | .derive pw => pw.length
  | .ctrinit _ => 8
  | .ctrblk _ => 16
  | .encmsg _ pt => 8 + pt.length
  | .decmsg text => text.length
  | .b64enc data => data.length
  | .b64dec text => text.length
  | .rdstat => 0

/-- An operand of `n` bytes is not longer than `MAX_OPERAND_BYTES` (R7, R42). -/
def Config.operandFits (c : Config) (n : Nat) : Bool :=
  match c.maxOperandBytes with
  | none => true
  | some limit => decide (n ≤ limit)

/-- A command is well formed when its operand is within `MAX_OPERAND_BYTES` (R42). -/
def Instr.wellFormed (c : Config) (i : Instr) : Bool :=
  c.operandFits i.operandLength

end Sys2Proof
end

