-- ==== Sys2Proof/Decode.lean ====
section
/-!
DEFINITION. The decoder of spec/30_encoding.md R49, total on every byte string, and the encoder written from the same
tables (R38, R39).
-/

namespace Sys2Proof

/-- Why a byte string is no well-formed command (R49). -/
inductive DecodeError where
  /-- `E_ILLEGAL`: the empty byte string, or an opcode outside `0x01..0x0A` (R41, R107). -/
  | illegal
  /-- `E_LENGTH`: the length does not fit the format, or the operand exceeds `MAX_OPERAND_BYTES` (R42, R108). -/
  | length
  deriving DecidableEq, Repr

/-- The format of an opcode, R39; the other opcodes select no command, R41. -/
def formatOf (op : Byte) : Option Format :=
  match op.toNat with
  | 0x01 => some .k
  | 0x02 => some .b
  | 0x03 => some .v
  | 0x04 => some .n
  | 0x05 => some .b
  | 0x06 => some .m
  | 0x07 => some .v
  | 0x08 => some .v
  | 0x09 => some .v
  | 0x0A => some .z
  | _ => none

/-- The total lengths a format admits, R38. -/
def Format.fits (f : Format) (len : Nat) : Bool :=
  match f with
  | .z => len == 1
  | .k => len == 33
  | .b => len == 17
  | .n => len == 9
  | .v => decide (1 ≤ len)
  | .m => decide (9 ≤ len)

/-- The shortest total length a format admits, R38. -/
def Format.minLength : Format → Nat
  | .z => 1
  | .k => 33
  | .b => 17
  | .n => 9
  | .v => 1
  | .m => 9

/-- The first `n` bytes of a byte string as a field of exactly `n` bytes. The decoder takes a field only after the
length check of R42, so no byte is ever missing. -/
def fieldOf (n : Nat) (bytes : Bytes) : Vector Byte n :=
  Vector.ofFn fun j => bytes.getD j.val 0

/-- The command of an opcode with its fields split off the operand `cmd[1..len)`, R38, R39. -/
def splitFields (op : Byte) (operand : Bytes) : Option Instr :=
  match op.toNat with
  | 0x01 => some (.setkey (fieldOf 32 operand))
  | 0x02 => some (.encblk (fieldOf 16 operand))
  | 0x03 => some (.derive operand)
  | 0x04 => some (.ctrinit (fieldOf 8 operand))
  | 0x05 => some (.ctrblk (fieldOf 16 operand))
  | 0x06 => some (.encmsg (fieldOf 8 operand) (operand.drop 8))
  | 0x07 => some (.decmsg operand)
  | 0x08 => some (.b64enc operand)
  | 0x09 => some (.b64dec operand)
  | 0x0A => some .rdstat
  | _ => none

/-- The decoder of R49: the opcode first, then the length (format, then `MAX_OPERAND_BYTES`), then the fields. -/
def decode (c : Config) (cmd : Bytes) : Except DecodeError Instr :=
  match cmd with
  | [] => .error .illegal
  | op :: operand =>
    match formatOf op with
    | none => .error .illegal
    | some f =>
      if f.fits (operand.length + 1) && c.operandFits operand.length then
        match splitFields op operand with
        | some i => .ok i
        | none => .error .illegal
      else .error .length

/-- The opcode of a command, R39. -/
def Instr.opcode : Instr → Byte
  | .setkey _ => 0x01
  | .encblk _ => 0x02
  | .derive _ => 0x03
  | .ctrinit _ => 0x04
  | .ctrblk _ => 0x05
  | .encmsg _ _ => 0x06
  | .decmsg _ => 0x07
  | .b64enc _ => 0x08
  | .b64dec _ => 0x09
  | .rdstat => 0x0A

/-- The operand of a command, R38. -/
def Instr.operand : Instr → Bytes
  | .setkey key => key.toList
  | .encblk block => block.toList
  | .derive pw => pw
  | .ctrinit nonce => nonce.toList
  | .ctrblk block => block.toList
  | .encmsg nonce pt => nonce.toList ++ pt
  | .decmsg text => text
  | .b64enc data => data
  | .b64dec text => text
  | .rdstat => []

/-- The command's byte string, `opcode || operand` (R37). -/
def encode (i : Instr) : Bytes :=
  i.opcode :: i.operand

/-- The low `k` bytes of `w`, least significant first: how spec/opcode_table.json numbers a command's bits. -/
def tableBytes (k w : Nat) : Bytes :=
  (List.range k).map fun j => BitVec.ofNat 8 (w >>> (8 * j))

/-- The command the opcode table's bits stand for: `nbits` bits of `w`, and zero bytes after them up to the shortest
length the opcode's format admits (R38). The transport gives a command's length (R37), so that is its whole length. -/
def tableCommand (nbits w : Nat) : Bytes :=
  let given := tableBytes ((nbits + 7) / 8) (w % 2 ^ nbits)
  match given with
  | [] => []
  | op :: _ =>
    match formatOf op with
    | none => given
    | some f => given ++ List.replicate (f.minLength - given.length) 0

/-- What this decoder, at the default parameters, reads from the command `tableCommand nbits w`. -/
def decodeTableWord (nbits w : Nat) : Option Instr :=
  match decode Config.default (tableCommand nbits w) with
  | .ok i => some i
  | .error _ => none

end Sys2Proof
end

