-- ==== Sys2Proof/Machine/Operands.lean ====
section
/-!
DEFINITION. Operand and data layouts: bytes of words and matrices, XOR of byte strings, `LE64` and `BE64`
(spec/00_scope.md R8), key words (spec/20_memory.md R26), blocks as state matrices (R27), the counter block (R28) and
the splitting of a message into blocks (spec/43_ctr_wrapper.md R90).
-/

namespace Sys2Proof.Machine

/-- Byte `k` of a word, `w[k]`. -/
def wordGet (w : Word) : Fin 4 → Byte
  | 0 => w.b0
  | 1 => w.b1
  | 2 => w.b2
  | 3 => w.b3

/-- The word whose byte `k` is `f k`. -/
def wordOfFn (f : Fin 4 → Byte) : Word :=
  ⟨f 0, f 1, f 2, f 3⟩

/-- Byte-by-byte XOR of two words, R8. -/
def wordXor (a b : Word) : Word :=
  ⟨a.b0 ^^^ b.b0, a.b1 ^^^ b.b1, a.b2 ^^^ b.b2, a.b3 ^^^ b.b3⟩

/-- The four bytes of a word in order. -/
def wordBytes (w : Word) : Bytes :=
  [w.b0, w.b1, w.b2, w.b3]

/-- Column `c` of a state matrix. -/
def matColumn (S : StateMatrix) : Fin 4 → Word
  | 0 => S.c0
  | 1 => S.c1
  | 2 => S.c2
  | 3 => S.c3

/-- `S[r][c]`, R19. -/
def matGet (S : StateMatrix) (r c : Fin 4) : Byte :=
  wordGet (matColumn S c) r

/-- The matrix with `S[r][c] = f r c`. -/
def matOfFn (f : Fin 4 → Fin 4 → Byte) : StateMatrix :=
  ⟨wordOfFn (f · 0), wordOfFn (f · 1), wordOfFn (f · 2), wordOfFn (f · 3)⟩

/-- Byte-by-byte XOR of two blocks, R8. -/
def blockXor (a b : Block) : Block :=
  Vector.ofFn fun j => a[j] ^^^ b[j]

/-- `LE64(v)`, R8: least significant byte first. -/
def le64 (v : U64) : Vector Byte 8 :=
  Vector.ofFn fun j => (v >>> (8 * j.val)).setWidth 8

/-- `BE64(v)`, R8: most significant byte first. -/
def be64 (v : U64) : Vector Byte 8 :=
  Vector.ofFn fun j => (v >>> (8 * (7 - j.val))).setWidth 8

/-- `unLE64(s)`, R8. -/
def unLE64 (s : Vector Byte 8) : U64 :=
  s[7] ++ s[6] ++ s[5] ++ s[4] ++ s[3] ++ s[2] ++ s[1] ++ s[0]

/-- Word `j` of a key, R26. -/
def keyWord (k : Key) (j : Fin 8) : Word :=
  ⟨k[4 * j.val], k[4 * j.val + 1], k[4 * j.val + 2], k[4 * j.val + 3]⟩

/-- The counter block of index `i` under the nonce bytes `N`: `N || BE64(i)` (R28, R86). -/
def counterBlock (N : Nonce) (i : U64) : Block :=
  N ++ be64 i

/-- A block from at most 16 bytes, filled up with `PAD = 0x00` at its end (R90). -/
def padBlock (bytes : Bytes) : Block :=
  fieldOf 16 bytes

/-- The number of blocks of a message of `len` bytes, `ceil(len / 16)` (R90, R8). -/
def blockCount (len : Nat) : Nat :=
  (len + 16 - 1) / 16

/-- `s[a..b)`, R8. -/
def slice (s : Bytes) (a b : Nat) : Bytes :=
  (s.drop a).take (b - a)

/-- The blocks of a message, the last one zero-padded (R90). -/
def splitBlocks (pt : Bytes) : List Block :=
  (List.range (blockCount pt.length)).map fun i =>
    padBlock (slice pt (16 * i) (min (16 * i + 16) pt.length))

/-- The concatenation of blocks. -/
def joinBlocks (blocks : List Block) : Bytes :=
  blocks.flatMap fun b => b.toList

end Sys2Proof.Machine
end

