-- ==== Sys2Proof/Machine/KeySchedule.lean ====
section
/-!
DEFINITION. The key schedule and the command SETKEY (spec/41_key_schedule.md).
-/

namespace Sys2Proof.Machine

/-- `RotWord`, R63: the byte at index 0 moves to index 3. -/
def rotWord (w : Word) : Word :=
  ⟨w.b1, w.b2, w.b3, w.b0⟩

/-- `SubWord`, R64. -/
def subWord (w : Word) : Word :=
  ⟨sbox w.b0, sbox w.b1, sbox w.b2, sbox w.b3⟩

/-- The transform of `W[i-1]` in the recurrence of R65, for the word index `i` with `8 ≤ i ≤ 59`. -/
def scheduleTransform (i : Nat) (h : 8 ≤ i ∧ i ≤ 59) (t : Word) : Word :=
  if i % 8 = 0 then wordXor (subWord (rotWord t)) (rcon (i / 8) (by omega))
  else if i % 8 = 4 then subWord t
  else t

/-- The first `8 + n` words of the schedule of `k`, R65: the key's words, then `n` turns of the recurrence
`W[i] <- W[i-8] ^ t` in increasing `i`. -/
def expandWords (k : Key) : (n : Nat) → n ≤ 52 → Vector Word (8 + n)
  | 0, _ => Vector.ofFn fun j => keyWord k j
  | n + 1, h =>
    let W := expandWords k n (by omega)
    W.push (wordXor W[n] (scheduleTransform (8 + n) (by omega) W[n + 7]))

/-- `KeyExpansion(k)`, R65. -/
def keyExpansion (k : Key) : Schedule :=
  expandWords k 52 (by omega)

/-- The key a schedule was made from, `W[0] || ... || W[7]` (R11, R66). -/
def scheduleKey (W : Schedule) : Key :=
  Vector.ofFn fun j => wordGet (W[j.val / 4]'(by omega)) ⟨j.val % 4, by omega⟩

/-- Word `c` of the round key of round `rnd`, `W[4 * rnd + c]` (R68). -/
def roundKeyWord (W : Schedule) (rnd : Fin 15) (c : Fin 4) : Word :=
  W[4 * rnd.val + c.val]'(by omega)

/-- `SETKEY key`, R67. -/
def execSetkey (key : Key) (s : State) : Result :=
  finish .ok [] (putSchedule (keyExpansion key) s)

end Sys2Proof.Machine
end

