-- ==== Sys2Proof/Machine/BlockCipher.lean ====
section
/-!
DEFINITION. The block cipher and the command ENCBLK (spec/42_block_cipher.md).
-/

namespace Sys2Proof.Machine

/-- `LoadState`, R71: `S[r][c] <- in[r + 4*c]`. -/
def loadState (b : Block) : StateMatrix :=
  matOfFn fun r c => b[r.val + 4 * c.val]'(by omega)

/-- `StoreState`, R77: `out[r + 4*c] <- S[r][c]`. -/
def storeState (S : StateMatrix) : Block :=
  Vector.ofFn fun j => matGet S ⟨j.val % 4, by omega⟩ ⟨j.val / 4, by omega⟩

/-- `AddRoundKey`, R72: `S'[r][c] <- S[r][c] ^ W[4*rnd + c][r]`. -/
def addRoundKey (S : StateMatrix) (W : Schedule) (rnd : Fin 15) : StateMatrix :=
  matOfFn fun r c => matGet S r c ^^^ wordGet (roundKeyWord W rnd c) r

/-- `SubBytes`, R73. -/
def subBytes (S : StateMatrix) : StateMatrix :=
  matOfFn fun r c => sbox (matGet S r c)

/-- `ShiftRows`, R74: `S'[r][c] <- S[r][(c + r) mod 4]`. -/
def shiftRows (S : StateMatrix) : StateMatrix :=
  matOfFn fun r c => matGet S r (c + r)

/-- `MixColumn`, R75. -/
def mixColumn (a : Word) : Word :=
  ⟨xtime a.b0 ^^^ (xtime a.b1 ^^^ a.b1) ^^^ a.b2 ^^^ a.b3,
   a.b0 ^^^ xtime a.b1 ^^^ (xtime a.b2 ^^^ a.b2) ^^^ a.b3,
   a.b0 ^^^ a.b1 ^^^ xtime a.b2 ^^^ (xtime a.b3 ^^^ a.b3),
   (xtime a.b0 ^^^ a.b0) ^^^ a.b1 ^^^ a.b2 ^^^ xtime a.b3⟩

/-- The entry of row `r` and column `c` of the matrix `M` of R75, which `mixColumn` computes with. -/
def mixMatrix (r c : Fin 4) : Byte :=
  match c - r with
  | 0 => 2
  | 1 => 3
  | 2 => 1
  | 3 => 1

/-- `MixColumns`, R76: each column by itself. -/
def mixColumns (S : StateMatrix) : StateMatrix :=
  ⟨mixColumn S.c0, mixColumn S.c1, mixColumn S.c2, mixColumn S.c3⟩

/-- One of the rounds 1 to 13 of R78, in its order. -/
def middleRound (W : Schedule) (S : StateMatrix) (rnd : Fin 15) : StateMatrix :=
  addRoundKey (mixColumns (shiftRows (subBytes S))) W rnd

/-- The last round, 14, which omits the column mixing (R78). -/
def finalRound (W : Schedule) (S : StateMatrix) : StateMatrix :=
  addRoundKey (shiftRows (subBytes S)) W 14

/-- The rounds 1 to 13 in order (R78). -/
def middleRounds : List (Fin 15) :=
  [1, 2, 3, 4, 5, 6, 7, 8, 9, 10, 11, 12, 13]

/-- `Cipher(in, W)`, R78. -/
def cipher (b : Block) (W : Schedule) : Block :=
  storeState (finalRound W (middleRounds.foldl (middleRound W) (addRoundKey (loadState b) W 0)))

/-- `ENCBLK block`, R80. -/
def execEncblk (block : Block) (s : State) : Result :=
  match schedule? s with
  | none => raise .eNokey s
  | some W => finish .ok (cipher block W).toList s

end Sys2Proof.Machine
end

