-- ==== Sys2Proof/Machine/Text.lean ====
section
/-!
DEFINITION. `ValidText` (spec/43_ctr_wrapper.md R92): by default well-formed UTF-8, by the table of R92.
-/

namespace Sys2Proof.Machine

/-- The table of R92: each form of a sequence as its inclusive byte ranges in order. -/
def utf8Forms : List (List (Nat × Nat)) := [
  [(0x00, 0x7F)],
  [(0xC2, 0xDF), (0x80, 0xBF)],
  [(0xE0, 0xE0), (0xA0, 0xBF), (0x80, 0xBF)],
  [(0xE1, 0xEC), (0x80, 0xBF), (0x80, 0xBF)],
  [(0xED, 0xED), (0x80, 0x9F), (0x80, 0xBF)],
  [(0xEE, 0xEF), (0x80, 0xBF), (0x80, 0xBF)],
  [(0xF0, 0xF0), (0x90, 0xBF), (0x80, 0xBF), (0x80, 0xBF)],
  [(0xF1, 0xF3), (0x80, 0xBF), (0x80, 0xBF), (0x80, 0xBF)],
  [(0xF4, 0xF4), (0x80, 0x8F), (0x80, 0xBF), (0x80, 0xBF)]]

/-- A byte lies in an inclusive range. -/
def inRange (range : Nat × Nat) (b : Byte) : Bool :=
  decide (range.1 ≤ b.toNat ∧ b.toNat ≤ range.2)

/-- What is left of `p` after a sequence of the given form at its front, if there is one. -/
def dropForm : List (Nat × Nat) → Bytes → Option Bytes
  | [], p => some p
  | _ :: _, [] => none
  | range :: form, b :: p => if inRange range b then dropForm form p else none

/-- What is left of `p` after the sequence at its front. The forms' first bytes are disjoint, so at most one fits. -/
def dropSequence (p : Bytes) : Option Bytes :=
  utf8Forms.findSome? fun form => dropForm form p

/-- `p` is a concatenation of at most `fuel` sequences. -/
def utf8Within : (fuel : Nat) → Bytes → Bool
  | _, [] => true
  | 0, _ :: _ => false
  | fuel + 1, b :: p =>
    match dropSequence (b :: p) with
    | none => false
    | some rest => utf8Within fuel rest

/-- Well-formed UTF-8, R92. A byte string has at most as many sequences as bytes. -/
def validUtf8 (p : Bytes) : Bool :=
  utf8Within p.length p

/-- `ValidText(p)`, R92, under the parameters of R7. -/
def validText (c : Config) (p : Bytes) : Bool :=
  match c.validText with
  | .utf8 => validUtf8 p
  | .other n => Config.otherValidText n p

end Sys2Proof.Machine
end

