-- ==== Sys2Proof/Machine/CtrWrapper.lean ====
section
/-!
DEFINITION. The counter-mode stream wrapper and the commands DERIVE, CTRINIT, CTRBLK, ENCMSG and DECMSG
(spec/43_ctr_wrapper.md).
-/

namespace Sys2Proof.Machine

/-- `PadKey(pw)`, R83: the first 32 bytes, filled up with zeros. -/
def padKey (pw : Bytes) : Key :=
  fieldOf 32 pw

/-- The first 16 bytes of a key as a block, `K0[0..16)` of R84. -/
def firstBlock (k : Key) : Block :=
  Vector.ofFn fun j => k[j.val]'(by omega)

/-- The key `T || T`, R84. -/
def doubleBlock (T : Block) : Key :=
  T ++ T

/-- `DeriveKey(pw)`, R84. -/
def deriveKey (pw : Bytes) : Key :=
  let K0 := padKey pw
  doubleBlock (cipher (firstBlock K0) (keyExpansion K0))

/-- `DERIVE pw`, R85. -/
def execDerive (pw : Bytes) (s : State) : Result :=
  finish .ok [] (putSchedule (keyExpansion (deriveKey pw)) s)

/-- `CTRINIT nonce`, R87. -/
def execCtrinit (nonce : Nonce) (s : State) : Result :=
  finish .ok [] (putStream (startStream nonce) s)

/-- The keystream block at a stream's position, `Cipher(CounterBlock(NONCE, CTR), W)` (R88). -/
def keystream (W : Schedule) (nonce : Nonce) (i : U64) : Block :=
  cipher (counterBlock nonce i) W

/-- The advance of `CTR`, R89. When it clears `CV` the registers are absent from then on (R23, log entry 7). -/
def advance (st : Stream) : Stream :=
  { st with ctr := nextIndex st.ctr, cv := cvAfterAdvance (nextIndex st.ctr) st.cv }

/-- `BlockStep(block)`, R88: the block XOR the keystream block, and `CTR` advanced. -/
def blockStep (W : Schedule) (st : Stream) (block : Block) : Block × Stream :=
  (blockXor block (keystream W st.nonce st.ctr), advance st)

/-- `CTRBLK block`, R88. -/
def execCtrblk (block : Block) (s : State) : Result :=
  match schedule? s with
  | none => raise .eNokey s
  | some W =>
    match stream? s with
    | none => raise .eNoctr s
    | some st =>
      let (out, st') := blockStep W st block
      finish .ok out.toList (putStream st' s)

/-- Block steps on the blocks of a message in order (the loops of R90 and R94). -/
def runBlocks (W : Schedule) : Stream → List Block → List Block × Stream
  | st, [] => ([], st)
  | st, b :: bs =>
    let (out, st1) := blockStep W st b
    let (outs, st2) := runBlocks W st1 bs
    (out :: outs, st2)

/-- `EncryptStream(nonce, pt)`, R90: the framed message of R44 and the stream it leaves. -/
def encryptStream (W : Schedule) (nonce : Nonce) (pt : Bytes) : Bytes × Stream :=
  let (cs, st) := runBlocks W (startStream nonce) (splitBlocks pt)
  (nonce.toList ++ joinBlocks cs, st)

/-- A message of `n` blocks is too long when `n > 2^64` (R90, R108). -/
def tooManyBlocks (n : Nat) : Bool :=
  decide (2 ^ 64 < n)

/-- `ENCMSG nonce, pt`, R91, with the `E_LENGTH` of R90 first (R117). -/
def execEncmsg (nonce : Nonce) (pt : Bytes) (s : State) : Result :=
  if tooManyBlocks (blockCount pt.length) then raise .eLength s
  else
    match schedule? s with
    | none => raise .eNokey s
    | some W =>
      let (F, st) := encryptStream W nonce pt
      finish .ok (base64Enc F) (putStream st s)

/-- A byte string without the `0x00` bytes at its end (the loop of R93). -/
def stripTrailing (bytes : Bytes) : Bytes :=
  (bytes.reverse.dropWhile (· == 0x00)).reverse

/-- `StripZeros(blocks)`, R93, under `STRIP_SCOPE`. -/
def stripZeros (scope : StripScope) (blocks : List Block) : Bytes :=
  match scope with
  | .finalBlock =>
    match blocks.getLast? with
    | none => []
    | some last => joinBlocks blocks.dropLast ++ stripTrailing last.toList
  | .wholeMessage => stripTrailing (joinBlocks blocks)

/-- The number of blocks of the message a wire text holds, for the limit of R108. R94 and R108 leave open what counts where
the body is not whole blocks, and what a text that does not decode counts: DESIGN CHOICE (log entry 8): whole blocks only,
so that `2^64` blocks and a tail are `E_RAGGED` and `2^64 + 1` blocks and a tail `E_LENGTH`; 0 for a text that does not
decode. -/
def textBlockCount (c : Config) (text : Bytes) : Nat :=
  match base64Dec c.b64RejectNoncanonical text with
  | none => 0
  | some F => (F.length - 8) / 16

/-- Decryption of a framed message `F = nonce || body` (R94): the stripped bytes and the stream it leaves. -/
def decryptStream (c : Config) (W : Schedule) (F : Bytes) : Bytes × Stream :=
  let (ps, st) := runBlocks W (startStream (fieldOf 8 F)) (splitBlocks (F.drop 8))
  (stripZeros c.stripScope ps, st)

/-- `DECMSG text`, R94, with the `E_LENGTH` of R108 first (R117). -/
def execDecmsg (text : Bytes) (s : State) : Result :=
  if tooManyBlocks (textBlockCount s.config text) then raise .eLength s
  else
    match schedule? s with
    | none => raise .eNokey s
    | some W =>
      match base64Dec s.config.b64RejectNoncanonical text with
      | none => raise .eB64 s
      | some F =>
        if F.length < 8 then raise .eHeader s
        else if (F.length - 8) % 16 ≠ 0 then raise .eRagged s
        else
          let (p, st) := decryptStream s.config W F
          if validText s.config p then finish .ok p (putStream st s)
          else finish .passthru text (putStream st s)

end Sys2Proof.Machine
end

