-- ==== Sys2Proof/Machine/SystemCommands.lean ====
section
/-!
DEFINITION. The system command RDSTAT (spec/60_exceptions.md R122).
-/

namespace Sys2Proof.Machine

/-- `RDSTAT`, R122: the one byte `STATUS`. -/
def execRdstat (s : State) : Result :=
  finish .ok [statusByte s.wv s.cv] s

end Sys2Proof.Machine
end

