-- ==== Sys2Proof/Machine/Dispatch.lean ====
section
/-! DEFINITION. The meaning of every command: one arm per constructor, each a call of its meaning. -/

namespace Sys2Proof.Machine

def exec (i : Instr) (s : State) : Host.Outcome State Fault Refusal :=
  match i with
  | .setkey key => Sys2Proof.Machine.execSetkey key s
  | .encblk block => Sys2Proof.Machine.execEncblk block s
  | .derive pw => Sys2Proof.Machine.execDerive pw s
  | .ctrinit nonce => Sys2Proof.Machine.execCtrinit nonce s
  | .ctrblk block => Sys2Proof.Machine.execCtrblk block s
  | .encmsg nonce pt => Sys2Proof.Machine.execEncmsg nonce pt s
  | .decmsg text => Sys2Proof.Machine.execDecmsg text s
  | .b64enc data => Sys2Proof.Machine.execB64enc data s
  | .b64dec text => Sys2Proof.Machine.execB64dec text s
  | .rdstat => Sys2Proof.Machine.execRdstat s

end Sys2Proof.Machine
end

