-- ==== Sys2Proof/Machine/Port.lean ====
section
/-!
DEFINITION. The command port (spec/30_encoding.md R37, R49; spec/70_reset_and_hazards.md R131): what the next step has to
do, read off the first pending event.
-/

namespace Sys2Proof.Machine

/-- What a step has to do, each with the state once the event is taken off the port. -/
inductive Work where
  /-- Nothing is pending: the host has delivered no command and no event. -/
  | idle (s : State)
  /-- The reset event, R131. -/
  | reset (s : State)
  /-- A well-formed command, R49. -/
  | run (i : Instr) (s : State)
  /-- A byte string that is no well-formed command, with the error it raises, R49. -/
  | reject (st : Status) (s : State)
  deriving DecidableEq, Repr

/-- The status a decode error raises, R107, R108. -/
def decodeErrorStatus : DecodeError → Status
  | .illegal => .eIllegal
  | .length => .eLength

/-- The work a delivered command makes, R49. -/
def presented (cmd : Bytes) (s : State) : Work :=
  match decode s.config cmd with
  | .ok i => .run i s
  | .error e => .reject (decodeErrorStatus e) s

/-- The first pending event, taken off the port. -/
def nextWork (s : State) : Work :=
  match s.pending with
  | [] => .idle s
  | .reset :: rest => .reset (takeEvent rest s)
  | .command cmd :: rest => presented cmd (takeEvent rest s)

end Sys2Proof.Machine
end

