-- ==== Sys2Proof/Machine/Step.lean ====
section
/-!
DEFINITION. One step: the first pending event is taken off the port and carried out (spec/20_memory.md R32). With nothing
pending the engine is unchanged (log entry 2).
-/

namespace Sys2Proof.Machine

/-- One step of the engine. -/
def step (s : State) : Host.Outcome State Fault Refusal :=
  match nextWork s with
  | .idle s' => .next s'
  | .reset s' => .next (resetEngine s')
  | .run i s' => exec i s'
  | .reject st s' => raise st s'

/-- The command the opcode table's bits stand for, delivered next (log entry 2). -/
def State.withFetchWord (s : State) (nbits w : Nat) : State :=
  presentCommand (tableCommand nbits w) s

end Sys2Proof.Machine
end

