-- ==== Sys2Proof/Machine/Assembler.lean ====
section
/-!
DEFINITION. The assembler notation and the pseudo-commands (spec/30_encoding.md R46, R47): from the characters of one line
to the commands it stands for. Each parser takes what it reads off the front and gives the rest.
-/

namespace Sys2Proof.Machine

/-- The value of a hex digit. -/
def hexDigit (ch : Char) : Option Nat :=
  if '0'.toNat ≤ ch.toNat ∧ ch.toNat ≤ '9'.toNat then some (ch.toNat - '0'.toNat)
  else if 'a'.toNat ≤ ch.toNat ∧ ch.toNat ≤ 'f'.toNat then some (ch.toNat - 'a'.toNat + 10)
  else if 'A'.toNat ≤ ch.toNat ∧ ch.toNat ≤ 'F'.toNat then some (ch.toNat - 'A'.toNat + 10)
  else none

/-- The value of a decimal digit. -/
def decimalDigit (ch : Char) : Option Nat :=
  if '0'.toNat ≤ ch.toNat ∧ ch.toNat ≤ '9'.toNat then some (ch.toNat - '0'.toNat) else none

/-- The body of `h'...'`, R46: pairs of hex digits, first pair first, up to the closing mark. -/
def takeHex : List Char → Option (Bytes × List Char)
  | '\'' :: rest => some ([], rest)
  | a :: b :: rest =>
    match hexDigit a, hexDigit b, takeHex rest with
    | some x, some y, some (bytes, rest') => some (BitVec.ofNat 8 (16 * x + y) :: bytes, rest')
    | _, _, _ => none
  | _ => none

/-- The body of a quoted operand, R46: printable ASCII up to the closing quote. -/
def takeAscii : List Char → Option (Bytes × List Char)
  | '"' :: rest => some ([], rest)
  | ch :: rest =>
    if 0x20 ≤ ch.toNat ∧ ch.toNat ≤ 0x7E then
      match takeAscii rest with
      | some (bytes, rest') => some (BitVec.ofNat 8 ch.toNat :: bytes, rest')
      | none => none
    else none
  | [] => none

/-- A byte-string operand in either spelling, R46. -/
def takeBytes : List Char → Option (Bytes × List Char)
  | 'h' :: '\'' :: rest => takeHex rest
  | '"' :: rest => takeAscii rest
  | _ => none

/-- The digits at the front, added to the number read so far. -/
def takeDigits (digit : Char → Option Nat) (base : Nat) : Nat → List Char → Nat × List Char
  | acc, [] => (acc, [])
  | acc, ch :: rest =>
    match digit ch with
    | some d => takeDigits digit base (base * acc + d) rest
    | none => (acc, ch :: rest)

/-- A number below `2^64`. -/
def asU64 (r : Nat × List Char) : Option (U64 × List Char) :=
  if r.1 < 2 ^ 64 then some (BitVec.ofNat 64 r.1, r.2) else none

/-- A u64 operand, decimal or hexadecimal, R46. -/
def takeU64 : List Char → Option (U64 × List Char)
  | '0' :: 'x' :: ch :: rest =>
    match hexDigit ch with
    | some d => asU64 (takeDigits hexDigit 16 d rest)
    | none => none
  | ch :: rest =>
    match decimalDigit ch with
    | some d => asU64 (takeDigits decimalDigit 10 d rest)
    | none => none
  | [] => none

/-- The separator of operands. -/
def takeComma : List Char → Option (List Char)
  | ',' :: ' ' :: rest => some rest
  | _ => none

/-- One byte-string operand and nothing after it. -/
def onlyBytes (chars : List Char) : Option Bytes :=
  match takeBytes chars with
  | some (bytes, []) => some bytes
  | _ => none

/-- One hexadecimal operand of exactly `n` bytes and nothing after it. -/
def onlyHex (n : Nat) (chars : List Char) : Option Bytes :=
  match chars with
  | 'h' :: '\'' :: rest =>
    match takeHex rest with
    | some (bytes, []) => if bytes.length = n then some bytes else none
    | _ => none
  | _ => none

/-- One u64 operand and nothing after it. -/
def onlyU64 (chars : List Char) : Option U64 :=
  match takeU64 chars with
  | some (v, []) => some v
  | _ => none

/-- `<u64>, <bytes>`. -/
def u64ThenBytes (chars : List Char) : Option (U64 × Bytes) :=
  match takeU64 chars with
  | some (v, rest) =>
    match takeComma rest with
    | some rest' => (onlyBytes rest').map fun bytes => (v, bytes)
    | none => none
  | none => none

/-- `<bytes>` with operands after it, taken up by `next`. -/
def bytesThen {α : Type} (next : List Char → Option α) (chars : List Char) : Option (Bytes × α) :=
  match takeBytes chars with
  | some (bytes, rest) =>
    match takeComma rest with
    | some rest' => (next rest').map fun a => (bytes, a)
    | none => none
  | none => none

/-- The pseudo-command `ENCRYPT`, R47: `DERIVE` then `ENCMSG`. -/
def pseudoEncrypt (pt pw : Bytes) (n : U64) : List Instr :=
  [.derive pw, .encmsg (le64 n) pt]

/-- The pseudo-command `DECRYPT`, R47: `DERIVE` then `DECMSG`. -/
def pseudoDecrypt (text pw : Bytes) : List Instr :=
  [.derive pw, .decmsg text]

/-- The commands of a mnemonic and the characters of its operands, R46, R47. -/
def assembleOperands (mnemonic : String) (rest : List Char) : Option (List Instr) :=
  if mnemonic = "SETKEY" then (onlyHex 32 rest).map fun b => [.setkey (fieldOf 32 b)]
  else if mnemonic = "ENCBLK" then (onlyHex 16 rest).map fun b => [.encblk (fieldOf 16 b)]
  else if mnemonic = "DERIVE" then (onlyBytes rest).map fun b => [.derive b]
  else if mnemonic = "CTRINIT" then (onlyU64 rest).map fun n => [.ctrinit (le64 n)]
  else if mnemonic = "CTRBLK" then (onlyHex 16 rest).map fun b => [.ctrblk (fieldOf 16 b)]
  else if mnemonic = "ENCMSG" then (u64ThenBytes rest).map fun p => [.encmsg (le64 p.1) p.2]
  else if mnemonic = "DECMSG" then (onlyBytes rest).map fun b => [.decmsg b]
  else if mnemonic = "B64ENC" then (onlyBytes rest).map fun b => [.b64enc b]
  else if mnemonic = "B64DEC" then (onlyBytes rest).map fun b => [.b64dec b]
  else if mnemonic = "ENCRYPT" then
    (bytesThen (bytesThen onlyU64) rest).map fun p => pseudoEncrypt p.1 p.2.1 p.2.2
  else if mnemonic = "DECRYPT" then
    (bytesThen onlyBytes rest).map fun p => pseudoDecrypt p.1 p.2
  else none

/-- The commands one line stands for. -/
def assembleLine (line : String) : Option (List Instr) :=
  if line = "RDSTAT" then some [.rdstat]
  else
    let chars := line.toList
    assembleOperands (String.ofList (chars.takeWhile (· != ' '))) ((chars.dropWhile (· != ' ')).drop 1)

/-- The command byte strings one line assembles to, R46. -/
def assemble (line : String) : Option (List Bytes) :=
  (assembleLine line).map fun is => is.map encode

end Sys2Proof.Machine
end

