-- ==== Sys2Proof/Machine/Instances.lean ====
section
/-!
DEFINITION. Several engine instances (spec/60_exceptions.md R123): the product of independent copies of the one-instance
machine, with any interleaving of their steps.
-/

namespace Sys2Proof.Machine

/-- The state an instance's step answers; a step that stopped would leave the instance where it is. -/
def stepState (s : State) : State :=
  match step s with
  | .next t => t
  | .fault _ => s
  | .refused _ => s

/-- `n` steps of one instance. -/
def stepTimes : Nat → State → State
  | 0, s => s
  | n + 1, s => stepTimes n (stepState s)

/-- A step of instance `k`; the others do not move. -/
def stepInstance (k : Nat) (engines : List State) : List State :=
  engines.modify k stepState

/-- The instances after the steps of an interleaving, given as the list of who steps. -/
def runInterleaved : List Nat → List State → List State
  | [], engines => engines
  | k :: ks, engines => runInterleaved ks (stepInstance k engines)

end Sys2Proof.Machine
end

