-- ==== Sys2Proof/Safety.lean ====
section
/-!
DEFINITION. What counts as a good state and a safe run, in the terms the statements use: the invariant of
spec/10_state.md R23, R24, what a command leaves unchanged, and runs that never stop.
-/

namespace Sys2Proof.Machine

/-- An error's response is its one status byte (R106, R118). -/
def Response.Bare (r : Response) : Prop :=
  statusIsError r.status = true → r.result = []

/-- The invariant of R23 and R24, with what R89 leaves in the bits of `CTR` after the index space is used up (log
entry 7). -/
structure State.Inv (s : State) : Prop where
  /-- R23: `WV = 1` exactly when `W` is present. -/
  wv_iff_present : s.wv = s.w.isSome
  /-- R24 (1): `W` is the expansion of the key in its first eight words. -/
  w_is_expansion : ∀ W, s.w = some W → W = keyExpansion (scheduleKey W)
  /-- R23: `CV = 1` exactly when `NONCE` is present. -/
  cv_iff_nonce_present : s.cv = s.nonce.isSome
  /-- R23: `CV = 1` exactly when `CTR` is present. -/
  cv_iff_ctr_present : s.cv = s.ctr.isSome
  /-- The bits of `NONCE` and `CTR` are written together. -/
  bits_together : s.nonceBits.isSome = s.ctrBits.isSome
  /-- R14, R89: with `CV = 0` either nothing was written since reset or the index came to 0. -/
  cv_clear : s.cv = false → s.ctrBits = none ∨ s.ctrBits = some 0
  /-- R106: no error on the port carries result bytes. -/
  errors_bare : ∀ r ∈ s.responses, r.Bare

/-- `W` and `WV` are as before. -/
def SameKey (s t : State) : Prop :=
  t.w = s.w ∧ t.wv = s.wv

/-- `NONCE`, `CTR` and `CV` are as before, to the bit. -/
def SameStream (s t : State) : Prop :=
  t.nonceBits = s.nonceBits ∧ t.ctrBits = s.ctrBits ∧ t.cv = s.cv

/-- `NONCE`, `CTR` and `CV` are the same as far as a command can read them: equal flags, and equal registers where they are
present. -/
def SameReadableStream (s t : State) : Prop :=
  t.nonce = s.nonce ∧ t.ctr = s.ctr ∧ t.cv = s.cv

/-- `ch` is the character of the 6-bit value `v`: the table of spec/44_base64.md R97, row by row. -/
def IsB64Char (v : Nat) (ch : Byte) : Prop :=
  (v ≤ 25 ∧ ch.toNat = 0x41 + v) ∨
  (26 ≤ v ∧ v ≤ 51 ∧ ch.toNat = 0x61 + (v - 26)) ∨
  (52 ≤ v ∧ v ≤ 61 ∧ ch.toNat = 0x30 + (v - 52)) ∨
  (v = 62 ∧ ch = 0x2B) ∨
  (v = 63 ∧ ch = 0x2F)

/-- The parameters and what is still pending are as before. -/
def SamePort (s t : State) : Prop :=
  t.config = s.config ∧ t.pending = s.pending

/-- The one response a command added. -/
def Answered (s t : State) (r : Response) : Prop :=
  t.responses = s.responses ++ [r]

/-- Commands carried out one after the other (spec/30_encoding.md R48). -/
def execAll : List Instr → State → Result
  | [], s => .next s
  | i :: is, s =>
    match exec i s with
    | .next t => execAll is t
    | .fault f => .fault f
    | .refused r => .refused r

/-- A run that never stops: any number of steps answers a state. -/
def RunsForever (s : State) : Prop :=
  ∀ k, ∃ t, Sys2Proof.core.run k s = .next t

end Sys2Proof.Machine
end

