-- ==== Sys2Proof/Certificates/Slice0/Obligations.lean ====
section
/-!
DEFINITION. The statements for the provers, rule by rule. The engine has no addressable memory (spec/20_memory.md R25), so no
frame here speaks of memory; the registers and flags are `w`, `nonce`, `ctr`, `wv` and `cv` (spec/10_state.md R10).
-/

open Sys2Proof Sys2Proof.Machine

/-! ## Encoding (spec/30_encoding.md) -/

/-- R49 with R38, R39: decoding the byte string of a well-formed command gives the command back, every field at every
value. -/
def Obligations.DecodeOfEncodeGivesTheCommand : Prop :=
  ∀ (c : Config) (i : Instr), i.wellFormed c = true → decode c (encode i) = .ok i

/-- R49, R42 ("No command truncates or pads its operand to fit a format"): a byte string that decodes is exactly the
encoding of what it decodes to, which is well formed. -/
def Obligations.EncodeOfDecodeGivesTheBytes : Prop :=
  ∀ (c : Config) (cmd : Bytes) (i : Instr),
    decode c cmd = .ok i → encode i = cmd ∧ i.wellFormed c = true

/-- R107: exactly the empty byte string and the opcodes `0x00` and `0x0B..0xFF` are illegal, whatever the operand, and
such a command is answered with `E_ILLEGAL` and changes no register. -/
def Obligations.IllegalCommandsRaiseEIllegal : Prop :=
  (∀ (c : Config) (cmd : Bytes),
    decode c cmd = .error .illegal ↔
      cmd = [] ∨ ∃ op operand, cmd = op :: operand ∧ (op = 0x00 ∨ 0x0B ≤ op.toNat)) ∧
  (∀ (s : State) (cmd : Bytes) (rest : List HostEvent), s.pending = .command cmd :: rest →
    (cmd = [] ∨ ∃ op operand, cmd = op :: operand ∧ (op = 0x00 ∨ 0x0B ≤ op.toNat)) →
    step s = .next (respond .eIllegal [] { s with pending := rest }))

/-- R42: a legal opcode with a length that does not fit its format, or with an operand over `MAX_OPERAND_BYTES`, is
answered with `E_LENGTH`, in every state of the engine, and decoding fails with that error in no other case; no operand
is cut or padded to fit. -/
def Obligations.MisfittingLengthsRaiseELength : Prop :=
  ∀ (s : State) (op : Byte) (operand : Bytes) (rest : List HostEvent),
    s.pending = .command (op :: operand) :: rest → 0x01 ≤ op.toNat → op.toNat ≤ 0x0A →
    (decode s.config (op :: operand) = .error .length ↔
      (op = 0x0A ∧ operand.length ≠ 0) ∨ (op = 0x01 ∧ operand.length ≠ 32) ∨
      ((op = 0x02 ∨ op = 0x05) ∧ operand.length ≠ 16) ∨ (op = 0x04 ∧ operand.length ≠ 8) ∨
      (op = 0x06 ∧ operand.length < 8) ∨
      ∃ limit, s.config.maxOperandBytes = some limit ∧ limit < operand.length) ∧
    (decode s.config (op :: operand) = .error .length →
      step s = .next (respond .eLength [] { s with pending := rest })) ∧
    (∀ i, decode s.config (op :: operand) = .ok i → encode i = op :: operand)

/-- R90, R108: `ENCMSG` and `DECMSG` of a message of more than `2^64` blocks raise `E_LENGTH` before any state change
and before any look at the state. For `DECMSG` it is the model's reading of R108 and R117, not a rule, that the decoded length is
looked at before `WV` and that it counts whole blocks only (log entry 8). -/
def Obligations.OverlongMessagesRaiseELength : Prop :=
  (∀ (s : State) (nonce : Nonce) (pt : Bytes), 2 ^ 64 < (pt.length + 15) / 16 →
    exec (.encmsg nonce pt) s = .next (respond .eLength [] s)) ∧
  (∀ (s : State) (text F : Bytes), base64Dec s.config.b64RejectNoncanonical text = some F →
    2 ^ 64 < (F.length - 8) / 16 →
    exec (.decmsg text) s = .next (respond .eLength [] s))

/-- R38, R39 on words written out from the tables: one command of each format. -/
def Obligations.WrittenOutCommandsDecode : Prop :=
  decode Config.default [0x0A] = .ok .rdstat ∧
  decode Config.default (0x01 :: List.replicate 32 0xA5) = .ok (.setkey (Vector.replicate 32 0xA5)) ∧
  decode Config.default (0x02 :: List.replicate 16 0x3C) = .ok (.encblk (Vector.replicate 16 0x3C)) ∧
  decode Config.default [0x04, 8, 7, 6, 5, 4, 3, 2, 1] = .ok (.ctrinit #v[8, 7, 6, 5, 4, 3, 2, 1]) ∧
  decode Config.default [0x03, 0x73, 0x65] = .ok (.derive [0x73, 0x65]) ∧
  decode Config.default [0x06, 1, 0, 0, 0, 0, 0, 0, 0, 0x61] =
    .ok (.encmsg #v[1, 0, 0, 0, 0, 0, 0, 0] [0x61])

/-- R40: the nonce field of formats N and M is `LE64(n)`, byte `j` being `(n >> 8j) & 0xff`, and `unLE64` reads `n` back
from it. -/
def Obligations.NonceOperandIsLittleEndian : Prop :=
  ∀ (c : Config) (n : U64) (pt : Bytes), c.maxOperandBytes = none →
    unLE64 (le64 n) = n ∧
    (∀ (j : Nat) (h : j < 8), ((le64 n)[j]).toNat = n.toNat / 2 ^ (8 * j) % 256) ∧
    decode c (0x04 :: (le64 n).toList) = .ok (.ctrinit (le64 n)) ∧
    decode c (0x06 :: ((le64 n).toList ++ pt)) = .ok (.encmsg (le64 n) pt)

/-! ## The port (spec/30_encoding.md R37, spec/60_exceptions.md, spec/70_reset_and_hazards.md) -/

/-- R37, R49: a delivered command that decodes is carried out on the state with the command taken off the port. -/
def Obligations.StepRunsTheDecodedCommand : Prop :=
  ∀ (s : State) (cmd : Bytes) (rest : List HostEvent) (i : Instr),
    s.pending = .command cmd :: rest → decode s.config cmd = .ok i →
    step s = exec i { s with pending := rest }

/-- R106, R115, R118, R144: every command completes and no step ever stops, from any state, however many steps are
taken. -/
def Obligations.EveryStepAnswersAState : Prop :=
  (∀ (i : Instr) (s : State), ∃ t, exec i s = .next t) ∧ ∀ s : State, RunsForever s

/-- R37, R106: one delivered command gives exactly one response, whose result is empty for every status other than `OK` and
`PASSTHRU`; on the port it is the status's code and then the result. The codes are those of R106's table, and bit 7 is 1 exactly
for the seven errors. -/
def Obligations.OneCommandGivesOneResponse : Prop :=
  (∀ (s t : State) (cmd : Bytes) (rest : List HostEvent),
    s.pending = .command cmd :: rest → step s = .next t →
    t.pending = rest ∧ ∃ r, t.responses = s.responses ++ [r] ∧
      responseBytes r = statusCode r.status :: r.result ∧
      (r.status ≠ .ok → r.status ≠ .passthru → r.result = [])) ∧
  (statusCode .ok = 0x00 ∧ statusCode .passthru = 0x01 ∧ statusCode .eIllegal = 0x80 ∧
    statusCode .eLength = 0x81 ∧ statusCode .eNokey = 0x82 ∧ statusCode .eNoctr = 0x83 ∧
    statusCode .eB64 = 0x84 ∧ statusCode .eHeader = 0x85 ∧ statusCode .eRagged = 0x86) ∧
  (∀ st : Status, (statusCode st).getLsbD 7 = true ↔ st ≠ .ok ∧ st ≠ .passthru)

/-- R118: a command that raises an error answers exactly its one status byte, and nothing else in the state changes. -/
def Obligations.ErrorsChangeNothing : Prop :=
  ∀ (s t : State) (cmd : Bytes) (rest : List HostEvent) (r : Response),
    s.pending = .command cmd :: rest → step s = .next t → t.responses = s.responses ++ [r] →
    statusIsError r.status = true →
    responseBytes r = [statusCode r.status] ∧
      t = { s with pending := rest, responses := s.responses ++ [r] }

/-- R119: re-issuing the failed command on the state it left fails again in the same way. -/
def Obligations.ReissuedErrorFailsAgain : Prop :=
  ∀ (i : Instr) (s t : State) (r : Response),
    exec i s = .next t → t.responses = s.responses ++ [r] → statusIsError r.status = true →
    exec i t = .next { t with responses := t.responses ++ [r] }

/-- R131 with R22: the reset event puts every register and flag to its reset value and answers nothing. The model keeps
the parameters and what the port has carried (log entry 4, the model's choice). -/
def Obligations.ResetEventClearsTheRegisters : Prop :=
  ∀ (s : State) (rest : List HostEvent), s.pending = .reset :: rest →
    step s = .next { State.reset with
      config := s.config, pending := rest, responses := s.responses }

/-- R131: reset is the only way to clear `WV`. -/
def Obligations.OnlyResetClearsWv : Prop :=
  ∀ s t : State, step s = .next t → s.wv = true → t.wv = false →
    ∃ rest, s.pending = .reset :: rest

/-! ## The invariant (spec/10_state.md R23, R24) -/

/-- R23, R24: the invariant holds after every step from a state in which it holds: `WV = 1` exactly when `W` is present,
`W` is the expansion of its own first eight words, `CV = 1` exactly when `NONCE` and `CTR` are present, and no error carries
result bytes. What the bits of `CTR` hold with `CV = 0` follows R89 (log entry 7). -/
def Obligations.StepKeepsTheInvariant : Prop :=
  ∀ s t : State, s.Inv → step s = .next t → t.Inv

/-- R22: the state after reset meets the invariant, with both flags 0 and the registers without value. -/
def Obligations.ResetMeetsTheInvariant : Prop :=
  State.reset.Inv ∧ State.reset.wv = false ∧ State.reset.cv = false ∧ State.reset.w = none ∧
    State.reset.nonce = none ∧ State.reset.ctr = none ∧ State.reset.nonceBits = none ∧ State.reset.ctrBits = none

/-- R23, R14: whatever commands and resets the host delivers, after any number of steps from the reset state `WV = 1` exactly
when `W` is present, and `CV = 1` exactly when `NONCE` and exactly when `CTR` is; also after the index space is used up
(log entry 7). -/
def Obligations.PresenceFollowsTheFlags : Prop :=
  ∀ (c : Config) (events : List HostEvent) (k : Nat), ∃ t : State,
    Sys2Proof.core.run k ({ State.reset with config := c, pending := events } : State) = .next t ∧
    t.wv = t.w.isSome ∧ t.cv = t.nonce.isSome ∧ t.cv = t.ctr.isSome

/-! ## Frames -/

/-- R67, R85, D18: `SETKEY` and `DERIVE` leave `NONCE`, `CTR`, `CV`, the parameters and the pending events as they are. -/
def Obligations.FrameOfKeyCommands : Prop :=
  ∀ (s t : State) (key : Key) (pw : Bytes),
    (exec (.setkey key) s = .next t ∨ exec (.derive pw) s = .next t) →
    SameStream s t ∧ SamePort s t

/-- R80, R100, R101, R122: `ENCBLK`, `B64ENC`, `B64DEC` and `RDSTAT` write no register and no flag, whatever they
answer. -/
def Obligations.FrameOfCommandsThatWriteNothing : Prop :=
  ∀ (s t : State) (block : Block) (data : Bytes),
    (exec (.encblk block) s = .next t ∨ exec (.b64enc data) s = .next t ∨
      exec (.b64dec data) s = .next t ∨ exec .rdstat s = .next t) →
    SameKey s t ∧ SameStream s t ∧ SamePort s t

/-- R11, R12, R87, R88, R91, R94: `CTRINIT`, `CTRBLK`, `ENCMSG` and `DECMSG` leave `W`, `WV`, the parameters and the
pending events as they are, and `CTRBLK` never writes `NONCE`. -/
def Obligations.FrameOfStreamCommands : Prop :=
  (∀ (s t : State) (nonce : Nonce) (block : Block) (bytes : Bytes),
    (exec (.ctrinit nonce) s = .next t ∨ exec (.ctrblk block) s = .next t ∨
      exec (.encmsg nonce bytes) s = .next t ∨ exec (.decmsg bytes) s = .next t) →
    SameKey s t ∧ SamePort s t) ∧
  (∀ (s t : State) (block : Block), exec (.ctrblk block) s = .next t → t.nonceBits = s.nonceBits)

/-! ## What each command does -/

/-- R67: `SETKEY key` loads all 60 words of `KeyExpansion(key)`, sets `WV`, changes nothing else and answers `OK`; a
command that is not exactly 33 bytes is `E_LENGTH`, and nothing changes. -/
def Obligations.SetkeyLoadsTheExpandedKey : Prop :=
  (∀ (s : State) (key : Key),
    exec (.setkey key) s =
      .next (respond .ok [] { s with w := some (keyExpansion key), wv := true })) ∧
  (∀ (s : State) (operand : Bytes) (rest : List HostEvent),
    s.pending = .command (0x01 :: operand) :: rest → operand.length ≠ 32 →
    step s = .next (respond .eLength [] { s with pending := rest }))

/-- R80: with `WV = 1`, `ENCBLK block` answers `Cipher(block, W)` and changes no register; with `WV = 0` it raises
`E_NOKEY`; a command that is not exactly 17 bytes is `E_LENGTH`, before any look at `WV`. -/
def Obligations.EncblkAnswersTheCipherBlock : Prop :=
  (∀ (s : State) (W : Schedule) (block : Block), s.wv = true → s.w = some W →
    exec (.encblk block) s = .next (respond .ok (cipher block W).toList s)) ∧
  (∀ (s : State) (block : Block), s.wv = false →
    exec (.encblk block) s = .next (respond .eNokey [] s)) ∧
  (∀ (s : State) (operand : Bytes) (rest : List HostEvent),
    s.pending = .command (0x02 :: operand) :: rest → operand.length ≠ 16 →
    step s = .next (respond .eLength [] { s with pending := rest }))

/-- R83, R84, R85: `DERIVE pw` loads the schedule of `T || T`, where `K0` is the password zero-padded or cut to 32 bytes and
`T` is the encryption of the first 16 bytes of `K0` under `K0`; it sets `WV`, changes nothing else and answers `OK`; an
operand over `MAX_OPERAND_BYTES` is `E_LENGTH`. -/
def Obligations.DeriveLoadsTheDoubledCiphertext : Prop :=
  (∀ (s : State) (pw : Bytes), ∃ (K0 K : Key) (block T : Block),
    (∀ (j : Nat) (_ : j < 32), K0[j] = if _ : j < pw.length then pw[j] else 0x00) ∧
    (∀ (j : Nat) (_ : j < 16), block[j] = K0[j]) ∧
    T = cipher block (keyExpansion K0) ∧
    (∀ (j : Nat) (_ : j < 16), K[j] = T[j] ∧ K[j + 16] = T[j]) ∧
    exec (.derive pw) s =
      .next (respond .ok [] { s with w := some (keyExpansion K), wv := true })) ∧
  (∀ (s : State) (pw : Bytes) (rest : List HostEvent) (limit : Nat),
    s.pending = .command (0x03 :: pw) :: rest → s.config.maxOperandBytes = some limit →
    limit < pw.length →
    step s = .next (respond .eLength [] { s with pending := rest }))

/-- R87: `CTRINIT nonce` writes the nonce, sets `CTR` to 0 and `CV` to 1, changes nothing else and answers `OK`, for every
nonce and in every state; a command that is not exactly 9 bytes is `E_LENGTH`. -/
def Obligations.CtrinitStartsTheStream : Prop :=
  (∀ (s : State) (nonce : Nonce),
    exec (.ctrinit nonce) s =
      .next (respond .ok [] { s with nonceBits := some nonce, ctrBits := some 0, cv := true })) ∧
  (∀ (s : State) (operand : Bytes) (rest : List HostEvent),
    s.pending = .command (0x04 :: operand) :: rest → operand.length ≠ 8 →
    step s = .next (respond .eLength [] { s with pending := rest }))

/-- R88, R89: with `WV = 1` and `CV = 1`, `CTRBLK block` answers the block XOR `Cipher(NONCE || BE64(CTR), W)` and
advances `CTR` by one modulo `2^64`, clearing `CV` exactly when it comes to 0; with `WV = 0` it raises `E_NOKEY`, with
`WV = 1` and `CV = 0` `E_NOCTR`; a command that is not exactly 17 bytes is `E_LENGTH`. -/
def Obligations.CtrblkXorsTheKeystream : Prop :=
  (∀ (s : State) (W : Schedule) (N : Nonce) (i : U64) (block : Block),
    s.wv = true → s.w = some W → s.cv = true → s.nonce = some N → s.ctr = some i →
    ∃ out : Block,
      (∀ (j : Nat) (_ : j < 16), out[j] = block[j] ^^^ (cipher (counterBlock N i) W)[j]) ∧
      exec (.ctrblk block) s =
        .next (respond .ok out.toList
          { s with ctrBits := some (i + 1), cv := decide (i + 1 ≠ 0) })) ∧
  (∀ (s : State) (block : Block), s.wv = false →
    exec (.ctrblk block) s = .next (respond .eNokey [] s)) ∧
  (∀ (s : State) (W : Schedule) (block : Block), s.wv = true → s.w = some W → s.cv = false →
    exec (.ctrblk block) s = .next (respond .eNoctr [] s)) ∧
  (∀ (s : State) (operand : Bytes) (rest : List HostEvent),
    s.pending = .command (0x05 :: operand) :: rest → operand.length ≠ 16 →
    step s = .next (respond .eLength [] { s with pending := rest }))

/-- R89, R110: the block of index `2^64 - 1` is processed, after which `CTR = 0`, `CV = 0` and every `CTRBLK` raises
`E_NOCTR`; after the next `CTRINIT` a `CTRBLK` is answered `OK` again. The `0` and the nonce are what R89 leaves in the bits;
the registers are absent while `CV = 0` (R23; log entry 7, the model's reading of the two rules). -/
def Obligations.IndexExhaustionEndsTheStream : Prop :=
  ∀ (s : State) (W : Schedule) (N N' : Nonce) (block block' : Block),
    s.wv = true → s.w = some W → s.cv = true → s.nonce = some N → s.ctr = some (BitVec.allOnes 64) →
    ∃ t u v, exec (.ctrblk block) s = .next t ∧ t.ctrBits = some 0 ∧ t.cv = false ∧ t.nonceBits = some N ∧
      t.ctr = none ∧ t.nonce = none ∧
      exec (.ctrblk block') t = .next (respond .eNoctr [] t) ∧
      exec (.ctrinit N') t = .next u ∧ exec (.ctrblk block') u = .next v ∧
      ∃ bytes, Answered u v { status := .ok, result := bytes }

/-- R90, R91: with `WV = 1`, `ENCMSG nonce, pt` answers the base64 text of the nonce and of `ceil(len/16)` blocks, byte `j`
of block `i` being byte `16 i + j` of the plaintext (`0x00` beyond its end) XOR the keystream of index `i`, and leaves
`NONCE`, `CTR = n` and `CV = 1` (`CV = 0` at `n = 2^64`, R89); with `WV = 0` it raises `E_NOKEY`. -/
def Obligations.EncmsgAnswersTheWireText : Prop :=
  (∀ (s : State) (W : Schedule) (nonce : Nonce) (pt : Bytes) (n : Nat),
    s.wv = true → s.w = some W → n = (pt.length + 15) / 16 → n ≤ 2 ^ 64 →
    ∃ cs : List Block, cs.length = n ∧
      (∀ (i : Nat) (hi : i < cs.length) (j : Nat) (hj : j < 16),
        (cs[i])[j] = pt.getD (16 * i + j) 0x00 ^^^
          (cipher (counterBlock nonce (BitVec.ofNat 64 i)) W)[j]) ∧
      exec (.encmsg nonce pt) s =
        .next (respond .ok (base64Enc (nonce.toList ++ cs.flatMap fun b => b.toList))
          { s with
            nonceBits := some nonce, ctrBits := some (BitVec.ofNat 64 n), cv := decide (n ≠ 2 ^ 64) })) ∧
  (∀ (s : State) (nonce : Nonce) (pt : Bytes), s.wv = false → (pt.length + 15) / 16 ≤ 2 ^ 64 →
    exec (.encmsg nonce pt) s = .next (respond .eNokey [] s))

/-- R91, D22: `ENCMSG nonce, pt` changes the registers exactly as `CTRINIT nonce` and one `CTRBLK` per padded block do, and
its result is the base64 text of the nonce followed by their results. -/
def Obligations.EncmsgEqualsTheBlockCommands : Prop :=
  ∀ (s : State) (W : Schedule) (nonce : Nonce) (pt : Bytes),
    s.wv = true → s.w = some W → (pt.length + 15) / 16 ≤ 2 ^ 64 →
    ∃ (t u : State) (outs : List Bytes),
      execAll (.ctrinit nonce :: (splitBlocks pt).map fun b => .ctrblk b) s = .next t ∧
      exec (.encmsg nonce pt) s = .next u ∧
      SameKey t u ∧ SameStream t u ∧
      t.responses = s.responses ++ { status := .ok, result := [] } ::
        outs.map (fun o => { status := .ok, result := o }) ∧
      Answered s u { status := .ok, result := base64Enc (nonce.toList ++ outs.flatten) }

/-- R94, R92, R93: the outcomes of `DECMSG text`, in the order of its checks. A text that decodes to `8 + 16 n` bytes
(`n ≤ 2^64`) writes the stream registers and answers `OK` with the stripped plaintext where it is valid text, and
`PASSTHRU` with the operand where it is not. Three points rest on log entry 8, the model's choice and no rule of the spec: the
bound in the `E_NOKEY` clause (the decoded text is counted before `WV` is looked at), that the bound in the `E_RAGGED` clause
counts whole blocks only (so `2^64` blocks and a tail are `E_RAGGED`), and that `E_B64` needs no bound (a text that does not
decode counts no blocks). -/
def Obligations.DecmsgOutcomes : Prop :=
  (∀ (s : State) (text : Bytes), s.wv = false →
    (∀ F, base64Dec s.config.b64RejectNoncanonical text = some F → (F.length - 8) / 16 ≤ 2 ^ 64) →
    exec (.decmsg text) s = .next (respond .eNokey [] s)) ∧
  (∀ (s : State) (W : Schedule) (text : Bytes), s.wv = true → s.w = some W →
    base64Dec s.config.b64RejectNoncanonical text = none →
    exec (.decmsg text) s = .next (respond .eB64 [] s)) ∧
  (∀ (s : State) (W : Schedule) (text F : Bytes), s.wv = true → s.w = some W →
    base64Dec s.config.b64RejectNoncanonical text = some F → F.length < 8 →
    exec (.decmsg text) s = .next (respond .eHeader [] s)) ∧
  (∀ (s : State) (W : Schedule) (text F : Bytes), s.wv = true → s.w = some W →
    base64Dec s.config.b64RejectNoncanonical text = some F → 8 ≤ F.length →
    (F.length - 8) / 16 ≤ 2 ^ 64 → (F.length - 8) % 16 ≠ 0 →
    exec (.decmsg text) s = .next (respond .eRagged [] s)) ∧
  (∀ (s : State) (W : Schedule) (text F : Bytes) (n : Nat), s.wv = true → s.w = some W →
    base64Dec s.config.b64RejectNoncanonical text = some F → F.length = 8 + 16 * n → n ≤ 2 ^ 64 →
    ∃ (N : Nonce) (ps : List Block) (t : State), ps.length = n ∧
      (∀ (j : Nat) (hj : j < 8), N[j] = F.getD j 0x00) ∧
      (∀ (i : Nat) (hi : i < ps.length) (j : Nat) (hj : j < 16),
        (ps[i])[j] = F.getD (8 + 16 * i + j) 0x00 ^^^
          (cipher (counterBlock N (BitVec.ofNat 64 i)) W)[j]) ∧
      t = { s with
        nonceBits := some N, ctrBits := some (BitVec.ofNat 64 n), cv := decide (n ≠ 2 ^ 64) } ∧
      (validText s.config (stripZeros s.config.stripScope ps) = true →
        exec (.decmsg text) s = .next (respond .ok (stripZeros s.config.stripScope ps) t)) ∧
      (validText s.config (stripZeros s.config.stripScope ps) = false →
        exec (.decmsg text) s = .next (respond .passthru text t)))

/-- R100: `B64ENC data` answers `OK` with `Base64Enc(data)` and changes nothing; only an operand over `MAX_OPERAND_BYTES`
is refused, with `E_LENGTH`. -/
def Obligations.B64encAnswersTheText : Prop :=
  (∀ (s : State) (data : Bytes),
    exec (.b64enc data) s = .next (respond .ok (base64Enc data) s)) ∧
  (∀ (s : State) (data : Bytes) (rest : List HostEvent) (limit : Nat),
    s.pending = .command (0x08 :: data) :: rest → s.config.maxOperandBytes = some limit →
    limit < data.length →
    step s = .next (respond .eLength [] { s with pending := rest }))

/-- R101: `B64DEC text` answers `OK` with the decoded bytes, or raises `E_B64` where the text does not decode; it changes
nothing; an operand over `MAX_OPERAND_BYTES` is `E_LENGTH` first. -/
def Obligations.B64decAnswersTheBytes : Prop :=
  (∀ (s : State) (text d : Bytes), base64Dec s.config.b64RejectNoncanonical text = some d →
    exec (.b64dec text) s = .next (respond .ok d s)) ∧
  (∀ (s : State) (text : Bytes), base64Dec s.config.b64RejectNoncanonical text = none →
    exec (.b64dec text) s = .next (respond .eB64 [] s)) ∧
  (∀ (s : State) (text : Bytes) (rest : List HostEvent) (limit : Nat),
    s.pending = .command (0x09 :: text) :: rest → s.config.maxOperandBytes = some limit →
    limit < text.length →
    step s = .next (respond .eLength [] { s with pending := rest }))

/-- R122, R16: `RDSTAT` answers `OK` with one byte whose bit 0 is `WV`, whose bit 1 is `CV` and whose other bits are 0,
and changes nothing; a longer command is `E_LENGTH`. -/
def Obligations.RdstatAnswersTheFlags : Prop :=
  (∀ s : State, ∃ b : Byte, exec .rdstat s = .next (respond .ok [b] s) ∧
    b.getLsbD 0 = s.wv ∧ b.getLsbD 1 = s.cv ∧ ∀ k, 2 ≤ k → b.getLsbD k = false) ∧
  (∀ (s : State) (operand : Bytes) (rest : List HostEvent),
    s.pending = .command (0x0A :: operand) :: rest → operand ≠ [] →
    step s = .next (respond .eLength [] { s with pending := rest }))

/-! ## Messages (spec/43_ctr_wrapper.md, spec/70_reset_and_hazards.md) -/

/-- R95: for every valid text `p` that does not end in `0x00` (of at most `2^64` blocks, R90), every password and every
nonce, `DERIVE pw; ENCMSG n, p` answers `(OK, t)` and, on any engine with the same parameters, `DERIVE pw; DECMSG t` answers
`(OK, p)`. -/
def Obligations.MessageRoundTrip : Prop :=
  ∀ (s s' : State) (p pw : Bytes) (nonce : Nonce),
    s'.config = s.config → validText s.config p = true → p.getLast? ≠ some 0x00 →
    (p.length + 15) / 16 ≤ 2 ^ 64 →
    ∃ (s1 s2 s3 s4 : State) (text : Bytes),
      exec (.derive pw) s = .next s1 ∧ exec (.encmsg nonce p) s1 = .next s2 ∧
      Answered s1 s2 { status := .ok, result := text } ∧
      exec (.derive pw) s' = .next s3 ∧ exec (.decmsg text) s3 = .next s4 ∧
      Answered s3 s4 { status := .ok, result := p }

/-- R135, R93: what decrypting an encrypted plaintext gives back: with `final_block` the zero bytes at the end of the last
block are lost and no others, with `whole_message` all zero bytes at the end of the plaintext. -/
def Obligations.DecryptionLosesTrailingZerosOnly : Prop :=
  ∀ (c : Config) (W : Schedule) (nonce : Nonce) (p : Bytes),
    (decryptStream c W (encryptStream W nonce p).1).1 =
      match c.stripScope with
      | .finalBlock =>
        p.take (16 * ((p.length + 15) / 16 - 1)) ++
          stripTrailing (p.drop (16 * ((p.length + 15) / 16 - 1)))
      | .wholeMessage => stripTrailing p

/-- R134: under one key and one nonce, the XOR of two ciphertexts is the XOR of the two plaintexts, block by block. -/
def Obligations.NonceReuseCancelsTheKeystream : Prop :=
  ∀ (W : Schedule) (st : Stream) (ps qs : List Block) (i : Nat) (p q : Block),
    ps[i]? = some p → qs[i]? = some q →
    ∃ x y : Block, (runBlocks W st ps).1[i]? = some x ∧ (runBlocks W st qs).1[i]? = some y ∧
      blockXor x y = blockXor p q

/-- R138, R88: flipping bits of ciphertext blocks flips exactly the same bits of the plaintext blocks; with no bit
flipped this is that XOR with the keystream is its own inverse. -/
def Obligations.TamperingFlipsTheSameBits : Prop :=
  ∀ (W : Schedule) (st : Stream) (ps ds : List Block), ds.length = ps.length →
    (runBlocks W st (List.zipWith blockXor (runBlocks W st ps).1 ds)).1 = List.zipWith blockXor ps ds

/-- R136: passwords that agree on their first 32 bytes, and a password and its extension by `0x00` bytes, have the same
effect. -/
def Obligations.EquivalentPasswordsLoadTheSameKey : Prop :=
  (∀ (s : State) (pw pw' : Bytes), pw.take 32 = pw'.take 32 →
    exec (.derive pw) s = exec (.derive pw') s) ∧
  (∀ (s : State) (pw : Bytes) (n : Nat),
    exec (.derive (pw ++ List.replicate n 0x00)) s = exec (.derive pw) s)

/-- R93: `StripZeros` with `final_block` shortens the final block only and exactly by the zero bytes at its end; with
`whole_message` it cuts exactly the zero bytes at the end of the concatenation; the two agree when the final block has a
nonzero byte; no block gives no bytes. -/
def Obligations.StripZerosCutsTrailingZerosOnly : Prop :=
  stripZeros .finalBlock [] = [] ∧
  (∀ (bs : List Block) (last : Block), ∃ q : Bytes,
    stripZeros .finalBlock (bs ++ [last]) = (bs.flatMap fun b => b.toList) ++ q ∧
    last.toList = q ++ List.replicate (16 - q.length) 0x00 ∧ q.getLast? ≠ some 0x00) ∧
  (∀ bs : List Block, ∃ (q : Bytes) (m : Nat),
    stripZeros .wholeMessage bs = q ∧
    (bs.flatMap fun b => b.toList) = q ++ List.replicate m 0x00 ∧ q.getLast? ≠ some 0x00) ∧
  (∀ (bs : List Block) (last : Block) (j : Nat) (_ : j < 16), last[j] ≠ 0x00 →
    stripZeros .finalBlock (bs ++ [last]) = stripZeros .wholeMessage (bs ++ [last]))

/-- R92: a byte string is valid text by default exactly when it is a concatenation of sequences each of which has the form
of a row of the table. -/
def Obligations.ValidTextIsConcatenationOfSequences : Prop :=
  ∀ p : Bytes, validUtf8 p = true ↔
    ∃ seqs : List Bytes, p = seqs.flatten ∧
      ∀ q ∈ seqs, ∃ form ∈ utf8Forms,
        List.Forall₂ (fun range (b : Byte) => range.1 ≤ b.toNat ∧ b.toNat ≤ range.2) form q

/-- R86, R28: bytes 0 to 7 of the counter block are the nonce's bytes (least significant byte of its value first), bytes 8 to
15 the index, most significant byte first; two different pairs never give the same counter block. -/
def Obligations.CounterBlockLayout : Prop :=
  (∀ (N : Nonce) (i : U64) (j : Nat) (h : j < 8),
    (counterBlock N i)[j] = N[j] ∧
    ((counterBlock N i)[j + 8]).toNat = i.toNat / 2 ^ (8 * (7 - j)) % 256) ∧
  (∀ (n i : U64) (j : Nat) (h : j < 8),
    ((counterBlock (le64 n) i)[j]).toNat = n.toNat / 2 ^ (8 * j) % 256) ∧
  (∀ (N N' : Nonce) (i i' : U64), counterBlock N i = counterBlock N' i' → N = N' ∧ i = i')

/-- R45, R143: the wire text of a message of `n` blocks has `4 * ceil((8 + 16 n) / 3)` characters: 12 for no block, and at
least 32 and a multiple of 4 for one block or more. -/
def Obligations.WireTextLength : Prop :=
  ∀ (W : Schedule) (nonce : Nonce) (pt : Bytes) (n : Nat), n = (pt.length + 15) / 16 →
    (base64Enc (encryptStream W nonce pt).1).length = 4 * ((8 + 16 * n + 2) / 3) ∧
    (n = 0 → (base64Enc (encryptStream W nonce pt).1).length = 12) ∧
    (1 ≤ n → 32 ≤ (base64Enc (encryptStream W nonce pt).1).length)

/-! ## Base64 (spec/44_base64.md) -/

/-- R99: `Base64Dec(Base64Enc(d)) = d` for every `d`, with either value of `B64_REJECT_NONCANONICAL`. -/
def Obligations.DecodingUndoesEncoding : Prop :=
  ∀ (reject : Bool) (d : Bytes), base64Dec reject (base64Enc d) = some d

/-- R99: with the default parameter, `Base64Enc(Base64Dec(t)) = t` for every `t` that decodes. -/
def Obligations.EncodingUndoesDecoding : Prop :=
  ∀ t d : Bytes, base64Dec true t = some d → base64Enc d = t

/-- R102: the length of an encoded text and its number of padding characters, the length of a decoded text,
and the length of the text of a framed message of `n` blocks. -/
def Obligations.B64TextLengths : Prop :=
  (∀ d : Bytes, (base64Enc d).length = 4 * ((d.length + 2) / 3) ∧
    (base64Enc d).count 0x3D = (3 - d.length % 3) % 3) ∧
  (∀ (reject : Bool) (t d : Bytes) (m : Nat), t.length = 4 * m → base64Dec reject t = some d →
    d.length = 3 * m - t.count 0x3D) ∧
  (∀ (F : Bytes) (n : Nat), F.length = 8 + 16 * n →
    (base64Enc F).length = 4 * ((8 + 16 * n + 2) / 3))

/-- R99: a text does not decode when its length is not a multiple of 4, when it holds a byte that is none of the 65 codes
of R97, when `=` stands before its last two positions, or in the last but one with another character after it. A text whose
last group has nonzero unused bits does not decode with `B64_REJECT_NONCANONICAL = true`, and with `false` decodes to the bytes
before those bits. -/
def Obligations.MalformedTextsDoNotDecode : Prop :=
  (∀ (reject : Bool) (t : Bytes),
    (t.length % 4 ≠ 0 ∨
      (∃ b ∈ t, ¬ ((0x41 ≤ b.toNat ∧ b.toNat ≤ 0x5A) ∨ (0x61 ≤ b.toNat ∧ b.toNat ≤ 0x7A) ∨
        (0x30 ≤ b.toNat ∧ b.toNat ≤ 0x39) ∨ b = 0x2B ∨ b = 0x2F ∨ b = 0x3D)) ∨
      (∃ i, i + 2 < t.length ∧ t[i]? = some 0x3D) ∨
      (∃ i, i + 2 = t.length ∧ t[i]? = some 0x3D ∧ t[i + 1]? ≠ some 0x3D)) →
    base64Dec reject t = none) ∧
  (∀ (t d : Bytes) (q0 q1 q2 : Byte) (v0 v1 v2 : Nat), base64Dec false t = some d → 0x3D ∉ t →
    IsB64Char v0 q0 → IsB64Char v1 q1 → IsB64Char v2 q2 → v2 % 4 ≠ 0 →
    base64Dec true (t ++ [q0, q1, q2, 0x3D]) = none ∧
    base64Dec false (t ++ [q0, q1, q2, 0x3D]) =
      some (d ++ [BitVec.ofNat 8 ((v0 * 2 ^ 12 + v1 * 2 ^ 6 + v2) / 2 ^ 10),
        BitVec.ofNat 8 ((v0 * 2 ^ 12 + v1 * 2 ^ 6 + v2) / 2 ^ 2)])) ∧
  (∀ (t d : Bytes) (q0 q1 : Byte) (v0 v1 : Nat), base64Dec false t = some d → 0x3D ∉ t →
    IsB64Char v0 q0 → IsB64Char v1 q1 → v1 % 16 ≠ 0 →
    base64Dec true (t ++ [q0, q1, 0x3D, 0x3D]) = none ∧
    base64Dec false (t ++ [q0, q1, 0x3D, 0x3D]) =
      some (d ++ [BitVec.ofNat 8 ((v0 * 2 ^ 6 + v1) / 2 ^ 4)]))

/-- R97, R98: the character values, row by row, in both directions; and the packing of `Base64Enc`: three bytes are 24 bits, the
first byte most significant, and become the characters of their bits 23:18, 17:12, 11:6 and 5:0; a last group of one or two bytes
is filled up with zero bits, and `=` stands for the characters that hold none of its bits. The spec takes the values and the
packing from general knowledge (log entry 12). -/
def Obligations.EncodedGroupsFollowTheTable : Prop :=
  (∀ v : BitVec 6, IsB64Char v.toNat (enc6 v)) ∧
  (∀ (ch : Byte) (v : BitVec 6), dec6 ch = some v ↔ IsB64Char v.toNat ch) ∧
  base64Enc [] = [] ∧
  (∀ (b0 b1 b2 : Byte) (rest : Bytes), ∃ c0 c1 c2 c3 : Byte,
    base64Enc (b0 :: b1 :: b2 :: rest) = c0 :: c1 :: c2 :: c3 :: base64Enc rest ∧
    IsB64Char ((b0.toNat * 2 ^ 16 + b1.toNat * 2 ^ 8 + b2.toNat) / 2 ^ 18) c0 ∧
    IsB64Char ((b0.toNat * 2 ^ 16 + b1.toNat * 2 ^ 8 + b2.toNat) / 2 ^ 12 % 64) c1 ∧
    IsB64Char ((b0.toNat * 2 ^ 16 + b1.toNat * 2 ^ 8 + b2.toNat) / 2 ^ 6 % 64) c2 ∧
    IsB64Char ((b0.toNat * 2 ^ 16 + b1.toNat * 2 ^ 8 + b2.toNat) % 64) c3) ∧
  (∀ b0 b1 : Byte, ∃ c0 c1 c2 : Byte,
    base64Enc [b0, b1] = [c0, c1, c2, 0x3D] ∧
    IsB64Char ((b0.toNat * 2 ^ 16 + b1.toNat * 2 ^ 8) / 2 ^ 18) c0 ∧
    IsB64Char ((b0.toNat * 2 ^ 16 + b1.toNat * 2 ^ 8) / 2 ^ 12 % 64) c1 ∧
    IsB64Char ((b0.toNat * 2 ^ 16 + b1.toNat * 2 ^ 8) / 2 ^ 6 % 64) c2) ∧
  (∀ b0 : Byte, ∃ c0 c1 : Byte,
    base64Enc [b0] = [c0, c1, 0x3D, 0x3D] ∧
    IsB64Char (b0.toNat * 2 ^ 16 / 2 ^ 18) c0 ∧
    IsB64Char (b0.toNat * 2 ^ 16 / 2 ^ 12 % 64) c1)

/-- R99: four characters of the alphabet decode to the three bytes of their 24 bits, and what follows them is decoded by
itself; in the last group three characters and `=` to the first two bytes of their 18 bits, two characters and `==` to the first
byte of their 12 bits, each of these only where the parameter admits the bits left over. -/
def Obligations.DecodedGroupsFollowTheTable : Prop :=
  ∀ (reject : Bool) (q0 q1 q2 q3 : Byte) (v0 v1 v2 v3 : Nat),
    IsB64Char v0 q0 → IsB64Char v1 q1 → IsB64Char v2 q2 → IsB64Char v3 q3 →
    (∀ rest : Bytes, base64Dec reject (q0 :: q1 :: q2 :: q3 :: rest) =
      (base64Dec reject rest).map fun d =>
        [BitVec.ofNat 8 ((v0 * 2 ^ 18 + v1 * 2 ^ 12 + v2 * 2 ^ 6 + v3) / 2 ^ 16),
          BitVec.ofNat 8 ((v0 * 2 ^ 18 + v1 * 2 ^ 12 + v2 * 2 ^ 6 + v3) / 2 ^ 8),
          BitVec.ofNat 8 (v0 * 2 ^ 18 + v1 * 2 ^ 12 + v2 * 2 ^ 6 + v3)] ++ d) ∧
    base64Dec reject [q0, q1, q2, 0x3D] =
      (if reject = true ∧ v2 % 4 ≠ 0 then none
       else some [BitVec.ofNat 8 ((v0 * 2 ^ 12 + v1 * 2 ^ 6 + v2) / 2 ^ 10),
        BitVec.ofNat 8 ((v0 * 2 ^ 12 + v1 * 2 ^ 6 + v2) / 2 ^ 2)]) ∧
    base64Dec reject [q0, q1, 0x3D, 0x3D] =
      (if reject = true ∧ v1 % 16 ≠ 0 then none
       else some [BitVec.ofNat 8 ((v0 * 2 ^ 6 + v1) / 2 ^ 4)])

/-! ## The cipher (spec/40_field_primitives.md, 41_key_schedule.md, 42_block_cipher.md) -/

/-- R79: for a fixed schedule the cipher is a bijection on blocks. -/
def Obligations.CipherIsBijection : Prop :=
  ∀ W : Schedule, Function.Bijective fun b => cipher b W

/-- R78: the cipher is 15 states, each from the one before: round 0 adds the first round key, rounds 1 to 13 substitute,
shift, mix and add, round 14 leaves out the mixing. -/
def Obligations.CipherRoundStructure : Prop :=
  ∀ (b : Block) (W : Schedule), ∃ S : Nat → StateMatrix,
    S 0 = addRoundKey (loadState b) W 0 ∧
    (∀ (r : Nat) (h : 1 ≤ r ∧ r ≤ 13),
      S r = addRoundKey (mixColumns (shiftRows (subBytes (S (r - 1))))) W ⟨r, by omega⟩) ∧
    S 14 = addRoundKey (shiftRows (subBytes (S 13))) W 14 ∧
    cipher b W = storeState (S 14)

/-- R71, R72, R73, R74, R76, R77 on block positions `r + 4 c`: loading and storing are inverse; the round key word `4 rnd + c`
goes to column `c`; every byte is substituted; row `r` moves left by `r`; column `c` becomes the `MixColumn` of column `c`. -/
def Obligations.RoundStepsByBlockPosition : Prop :=
  ∀ (b : Block) (W : Schedule) (rnd : Fin 15) (r c : Nat) (hr : r < 4) (hc : c < 4),
    storeState (loadState b) = b ∧
    (storeState (addRoundKey (loadState b) W rnd))[r + 4 * c]'(by omega) =
      b[r + 4 * c]'(by omega) ^^^ wordGet (W[4 * rnd.val + c]'(by omega)) ⟨r, hr⟩ ∧
    (storeState (subBytes (loadState b)))[r + 4 * c]'(by omega) = sbox (b[r + 4 * c]'(by omega)) ∧
    (storeState (shiftRows (loadState b)))[r + 4 * c]'(by omega) =
      b[r + 4 * ((c + r) % 4)]'(by omega) ∧
    (storeState (mixColumns (loadState b)))[r + 4 * c]'(by omega) =
      wordGet (mixColumn ⟨b[4 * c]'(by omega), b[4 * c + 1]'(by omega), b[4 * c + 2]'(by omega),
        b[4 * c + 3]'(by omega)⟩) ⟨r, hr⟩

/-- R75: `MixColumn` is the product with the matrix over GF(2^8), it is linear over XOR, it fixes every column of four equal
bytes, and it is a bijection. -/
def Obligations.MixColumnIsTheMatrixProduct : Prop :=
  (∀ (a : Word) (r : Fin 4),
    wordGet (mixColumn a) r =
      gmul (wordGet a 0) (mixMatrix r 0) ^^^ gmul (wordGet a 1) (mixMatrix r 1) ^^^
        gmul (wordGet a 2) (mixMatrix r 2) ^^^ gmul (wordGet a 3) (mixMatrix r 3)) ∧
  (∀ a b : Word, mixColumn (wordXor a b) = wordXor (mixColumn a) (mixColumn b)) ∧
  (∀ x : Byte, mixColumn ⟨x, x, x, x⟩ = ⟨x, x, x, x⟩) ∧
  Function.Bijective mixColumn

/-- R65, R58, R59: the recurrence of the key expansion, every word of it, with the round constants by doubling from 1. -/
def Obligations.KeyExpansionRecurrence : Prop :=
  ∀ k : Key,
    (∀ (j : Nat) (h : j < 8),
      (keyExpansion k)[j] = ⟨k[4 * j], k[4 * j + 1], k[4 * j + 2], k[4 * j + 3]⟩) ∧
    (∀ (i : Nat) (h : 8 ≤ i ∧ i < 60),
      (keyExpansion k)[i]'(h.2) = wordXor ((keyExpansion k)[i - 8]'(by omega))
        (let t := (keyExpansion k)[i - 1]'(by omega)
         if i % 8 = 0 then
           wordXor (subWord (rotWord t)) ⟨xtime^[i / 8 - 1] 0x01, 0x00, 0x00, 0x00⟩
         else if i % 8 = 4 then subWord t
         else t))

/-- R53, R54, R55: the product of bytes is commutative, distributes over XOR, and by 1, 2 and 3 is the byte, its doubling,
and its doubling XOR the byte. -/
def Obligations.FieldProductLaws : Prop :=
  ∀ a b c : Byte,
    gmul a b = gmul b a ∧ gmul (a ^^^ b) c = gmul a c ^^^ gmul b c ∧
    gmul a 0x01 = a ∧ gmul a 0x02 = xtime a ∧ gmul a 0x03 = xtime a ^^^ a ∧
    xtime (a ^^^ b) = xtime a ^^^ xtime b

/-- R57: the table of R56 is the affine map of the field inverse, and of `0x00` at `0x00`. -/
def Obligations.SboxFollowsTheFormula : Prop :=
  sbox 0x00 = sboxAffine 0x00 ∧
  ∀ a : Byte, a ≠ 0x00 → ∃ b : Byte, gmul a b = 0x01 ∧ sbox a = sboxAffine b

/-- R56: the substitution table is a bijection with no fixed point, and `0x52` is the only input that maps to zero. -/
def Obligations.SboxIsPermutationWithoutFixedPoint : Prop :=
  Function.Bijective sbox ∧ (∀ a : Byte, sbox a ≠ a) ∧ ∀ a : Byte, sbox a = 0x00 ↔ a = 0x52

/-! ## The whole machine -/

/-- R32: what a command does to the registers and what it answers is a function of the command, the registers and the
parameters, and of nothing else: not of earlier responses nor of what is still pending. -/
def Obligations.ResponseDependsOnRegistersOnly : Prop :=
  ∀ (i : Instr) (s s' : State),
    s'.config = s.config → SameKey s s' → SameStream s s' →
    ∃ (t t' : State) (r : Response), exec i s = .next t ∧ exec i s' = .next t' ∧
      SameKey t t' ∧ SameStream t t' ∧ Answered s t r ∧ Answered s' t' r

/-- R21: the commands that use no key cannot tell two engines with the same flags apart: their responses do not depend on
what `W`, `NONCE` and `CTR` hold. -/
def Obligations.RegistersAreNotReadBack : Prop :=
  ∀ (s s' : State) (i : Instr),
    s'.config = s.config → s'.wv = s.wv → s'.cv = s.cv →
    (∀ block, i ≠ .encblk block) → (∀ block, i ≠ .ctrblk block) →
    (∀ nonce pt, i ≠ .encmsg nonce pt) → (∀ text, i ≠ .decmsg text) →
    ∃ (t t' : State) (r : Response), exec i s = .next t ∧ exec i s' = .next t' ∧
      Answered s t r ∧ Answered s' t' r

/-- R23, U2, U14: nothing can be read out of an absent register. Two engines whose flags agree, whose `W` agrees and whose
`NONCE` and `CTR` agree where they are present answer every command alike and agree in the same way after it, whatever the
bits of absent registers hold. -/
def Obligations.AbsentRegistersAreNotRead : Prop :=
  ∀ (i : Instr) (s s' : State),
    s'.config = s.config → SameKey s s' → SameReadableStream s s' →
    ∃ (t t' : State) (r : Response), exec i s = .next t ∧ exec i s' = .next t' ∧
      SameKey t t' ∧ SameReadableStream t t' ∧ Answered s t r ∧ Answered s' t' r

/-- R47, C6: the responses of the pseudo-commands `ENCRYPT` and `DECRYPT` do not depend on the state before them, only on
their operands and the parameters. -/
def Obligations.PseudoCommandsForgetTheState : Prop :=
  ∀ (s s' : State) (is : List Instr), s'.config = s.config →
    ((∃ pt pw n, is = pseudoEncrypt pt pw n) ∨ ∃ text pw, is = pseudoDecrypt text pw) →
    ∃ (t t' : State) (rs : List Response), execAll is s = .next t ∧ execAll is s' = .next t' ∧
      t.responses = s.responses ++ rs ∧ t'.responses = s'.responses ++ rs

/-- R123: in a product of instances, under any interleaving, each instance ends where its own steps alone would have taken
it: no step of another instance reads or changes it. -/
def Obligations.InstancesDoNotInterfere : Prop :=
  ∀ (ks : List Nat) (engines : List State) (k : Nat),
    (runInterleaved ks engines)[k]? = (engines[k]?).map (stepTimes (ks.count k))
end

