-- ==== Sys2Proof/Laws/Data.lean ====
section
/-!
SUPPORT. The small lemmas of the data layouts and the round steps: reading back what was built.
-/

namespace Sys2Proof.Machine

@[simp] theorem wordGet_wordOfFn (f : Fin 4 → Byte) (k : Fin 4) : wordGet (wordOfFn f) k = f k := by
  fin_cases k <;> rfl

/-- Two words with the same bytes are the same word. -/
theorem word_ext_get {a b : Word} (h : ∀ k, wordGet a k = wordGet b k) : a = b := by
  obtain ⟨a0, a1, a2, a3⟩ := a
  obtain ⟨b0, b1, b2, b3⟩ := b
  have h0 := h 0
  have h1 := h 1
  have h2 := h 2
  have h3 := h 3
  simp only [wordGet] at h0 h1 h2 h3
  simp [h0, h1, h2, h3]

@[simp] theorem wordGet_wordXor (a b : Word) (k : Fin 4) :
    wordGet (wordXor a b) k = wordGet a k ^^^ wordGet b k := by
  fin_cases k <;> rfl

@[simp] theorem matGet_matOfFn (f : Fin 4 → Fin 4 → Byte) (r c : Fin 4) :
    matGet (matOfFn f) r c = f r c := by
  fin_cases c <;> fin_cases r <;> rfl

/-- Two matrices with the same bytes are the same matrix. -/
theorem mat_ext_get {S T : StateMatrix} (h : ∀ r c, matGet S r c = matGet T r c) : S = T := by
  have column (c : Fin 4) : matColumn S c = matColumn T c := word_ext_get fun r => h r c
  obtain ⟨s0, s1, s2, s3⟩ := S
  obtain ⟨t0, t1, t2, t3⟩ := T
  have h0 := column 0
  have h1 := column 1
  have h2 := column 2
  have h3 := column 3
  simp only [matColumn] at h0 h1 h2 h3
  simp [h0, h1, h2, h3]

@[simp] theorem matGet_loadState (b : Block) (r c : Fin 4) :
    matGet (loadState b) r c = b[r.val + 4 * c.val]'(by omega) := by
  simp [loadState]

@[simp] theorem matGet_addRoundKey (S : StateMatrix) (W : Schedule) (rnd : Fin 15) (r c : Fin 4) :
    matGet (addRoundKey S W rnd) r c = matGet S r c ^^^ wordGet (roundKeyWord W rnd c) r := by
  simp [addRoundKey]

@[simp] theorem matGet_subBytes (S : StateMatrix) (r c : Fin 4) :
    matGet (subBytes S) r c = sbox (matGet S r c) := by
  simp [subBytes]

@[simp] theorem matGet_shiftRows (S : StateMatrix) (r c : Fin 4) :
    matGet (shiftRows S) r c = matGet S r (c + r) := by
  simp [shiftRows]

@[simp] theorem matGet_mixColumns (S : StateMatrix) (r c : Fin 4) :
    matGet (mixColumns S) r c = wordGet (mixColumn (matColumn S c)) r := by
  fin_cases c <;> rfl

theorem storeState_getElem (S : StateMatrix) (j : Nat) (h : j < 16) :
    (storeState S)[j] = matGet S ⟨j % 4, by omega⟩ ⟨j / 4, by omega⟩ := by
  simp [storeState]

theorem blockXor_getElem (a b : Block) (j : Nat) (h : j < 16) :
    (blockXor a b)[j] = a[j] ^^^ b[j] := by
  simp [blockXor]

theorem fieldOf_getElem (n : Nat) (bytes : Bytes) (j : Nat) (h : j < n) :
    (fieldOf n bytes)[j] = bytes.getD j 0 := by
  simp [fieldOf]

/-- A field read from a byte string that begins with the field's own bytes. -/
theorem fieldOf_toList_append (n : Nat) (v : Vector Byte n) (rest : Bytes) :
    fieldOf n (v.toList ++ rest) = v := by
  ext j h
  rw [fieldOf_getElem n _ j h, List.getD_eq_getElem?_getD, List.getElem?_append_left (by simpa using h)]
  simp [h]

@[simp] theorem fieldOf_toList (n : Nat) (v : Vector Byte n) : fieldOf n v.toList = v := by
  simpa using fieldOf_toList_append n v []

@[simp] theorem advance_nonce (st : Stream) : (advance st).nonce = st.nonce := rfl

@[simp] theorem advance_ctr (st : Stream) : (advance st).ctr = st.ctr + 1 := rfl

theorem blockStep_eq (W : Schedule) (st : Stream) (b : Block) :
    blockStep W st b = (blockXor b (keystream W st.nonce st.ctr), advance st) := rfl

@[simp] theorem runBlocks_nil (W : Schedule) (st : Stream) : runBlocks W st [] = ([], st) := rfl

theorem runBlocks_cons (W : Schedule) (st : Stream) (b : Block) (bs : List Block) :
    runBlocks W st (b :: bs) =
      (blockXor b (keystream W st.nonce st.ctr) :: (runBlocks W (advance st) bs).1,
        (runBlocks W (advance st) bs).2) := rfl

/-- Block steps give one block for each block. -/
@[simp] theorem runBlocks_length (W : Schedule) (st : Stream) (bs : List Block) :
    (runBlocks W st bs).1.length = bs.length := by
  induction bs generalizing st with
  | nil => rfl
  | cons b bs ih => simp [runBlocks_cons, ih]

/-- Block steps do not write `NONCE`. -/
@[simp] theorem runBlocks_nonce (W : Schedule) (st : Stream) (bs : List Block) :
    (runBlocks W st bs).2.nonce = st.nonce := by
  induction bs generalizing st with
  | nil => rfl
  | cons b bs ih => simp [runBlocks_cons, ih]

/-- Block `i` of the output: block `i` of the input XOR the keystream `i` indices on. -/
theorem runBlocks_getElem? (W : Schedule) (st : Stream) (bs : List Block) (i : Nat) :
    (runBlocks W st bs).1[i]? =
      (bs[i]?).map fun b => blockXor b (keystream W st.nonce (st.ctr + BitVec.ofNat 64 i)) := by
  induction bs generalizing st i with
  | nil => rfl
  | cons b bs ih =>
    cases i with
    | zero => simp [runBlocks_cons]
    | succ i =>
      have shift : st.ctr + 1 + BitVec.ofNat 64 i = st.ctr + BitVec.ofNat 64 (i + 1) := by
        rw [Nat.add_comm i 1, BitVec.ofNat_add, BitVec.add_assoc]
        rfl
      rw [runBlocks_cons, List.getElem?_cons_succ, ih, advance_ctr, advance_nonce, shift, List.getElem?_cons_succ]

/-- The stream registers after the blocks of a message within the index space, R89: the index has advanced by the number
of blocks, and `CV` is 0 exactly when it has come to `2^64`. -/
theorem runBlocks_stream (W : Schedule) (nonce : Nonce) (bs : List Block) (k : Nat) (hk : k < 2 ^ 64)
    (h : k + bs.length ≤ 2 ^ 64) :
    (runBlocks W { nonce := nonce, ctr := BitVec.ofNat 64 k, cv := true } bs).2 =
      { nonce := nonce, ctr := BitVec.ofNat 64 (k + bs.length),
        cv := decide (k + bs.length ≠ 2 ^ 64) } := by
  induction bs generalizing k with
  | nil => simp; omega
  | cons b bs ih =>
    have next : nextIndex (BitVec.ofNat 64 k) = BitVec.ofNat 64 (k + 1) := by
      simp [nextIndex, BitVec.ofNat_add]
    rw [List.length_cons] at h ⊢
    rcases Nat.lt_or_ge (k + 1) (2 ^ 64) with hlt | hge
    · have nonzero : BitVec.ofNat 64 (k + 1) ≠ 0 := by
        intro h0
        have := congrArg BitVec.toNat h0
        rw [BitVec.toNat_ofNat, Nat.mod_eq_of_lt hlt] at this
        simp at this
      rw [runBlocks_cons]
      simp only [advance, next, cvAfterAdvance, if_neg nonzero]
      rw [ih (k + 1) hlt (by omega), show k + 1 + bs.length = k + (bs.length + 1) by omega]
    · have done : k + 1 = 2 ^ 64 := by omega
      have none_left : bs = [] := List.length_eq_zero_iff.mp (by omega)
      subst none_left
      simp [runBlocks_cons, advance, next, cvAfterAdvance, done]

@[simp] theorem splitBlocks_length (pt : Bytes) : (splitBlocks pt).length = blockCount pt.length := by
  simp [splitBlocks]

end Sys2Proof.Machine
end

