-- ==== Sys2Proof/Laws/State.lean ====
section
/-!
SUPPORT. What each update of State leaves in each field, so that no proof unfolds a record update.
-/

namespace Sys2Proof.Machine

@[simp] theorem putSchedule_config (W : Schedule) (s : State) :
    (putSchedule W s).config = s.config := rfl

@[simp] theorem putSchedule_w (W : Schedule) (s : State) :
    (putSchedule W s).w = some W := rfl

@[simp] theorem putSchedule_nonceBits (W : Schedule) (s : State) :
    (putSchedule W s).nonceBits = s.nonceBits := rfl

@[simp] theorem putSchedule_ctrBits (W : Schedule) (s : State) :
    (putSchedule W s).ctrBits = s.ctrBits := rfl

@[simp] theorem putSchedule_wv (W : Schedule) (s : State) :
    (putSchedule W s).wv = true := rfl

@[simp] theorem putSchedule_cv (W : Schedule) (s : State) :
    (putSchedule W s).cv = s.cv := rfl

@[simp] theorem putSchedule_pending (W : Schedule) (s : State) :
    (putSchedule W s).pending = s.pending := rfl

@[simp] theorem putSchedule_responses (W : Schedule) (s : State) :
    (putSchedule W s).responses = s.responses := rfl

@[simp] theorem putStream_config (st : Stream) (s : State) :
    (putStream st s).config = s.config := rfl

@[simp] theorem putStream_w (st : Stream) (s : State) :
    (putStream st s).w = s.w := rfl

@[simp] theorem putStream_nonceBits (st : Stream) (s : State) :
    (putStream st s).nonceBits = some st.nonce := rfl

@[simp] theorem putStream_ctrBits (st : Stream) (s : State) :
    (putStream st s).ctrBits = some st.ctr := rfl

@[simp] theorem putStream_wv (st : Stream) (s : State) :
    (putStream st s).wv = s.wv := rfl

@[simp] theorem putStream_cv (st : Stream) (s : State) :
    (putStream st s).cv = st.cv := rfl

@[simp] theorem putStream_pending (st : Stream) (s : State) :
    (putStream st s).pending = s.pending := rfl

@[simp] theorem putStream_responses (st : Stream) (s : State) :
    (putStream st s).responses = s.responses := rfl

@[simp] theorem respond_config (st : Status) (result : Bytes) (s : State) :
    (respond st result s).config = s.config := rfl

@[simp] theorem respond_w (st : Status) (result : Bytes) (s : State) :
    (respond st result s).w = s.w := rfl

@[simp] theorem respond_nonceBits (st : Status) (result : Bytes) (s : State) :
    (respond st result s).nonceBits = s.nonceBits := rfl

@[simp] theorem respond_ctrBits (st : Status) (result : Bytes) (s : State) :
    (respond st result s).ctrBits = s.ctrBits := rfl

@[simp] theorem respond_wv (st : Status) (result : Bytes) (s : State) :
    (respond st result s).wv = s.wv := rfl

@[simp] theorem respond_cv (st : Status) (result : Bytes) (s : State) :
    (respond st result s).cv = s.cv := rfl

@[simp] theorem respond_pending (st : Status) (result : Bytes) (s : State) :
    (respond st result s).pending = s.pending := rfl

@[simp] theorem respond_responses (st : Status) (result : Bytes) (s : State) :
    (respond st result s).responses = s.responses ++ [{ status := st, result := result }] := rfl

@[simp] theorem resetEngine_config (s : State) :
    (resetEngine s).config = s.config := rfl

@[simp] theorem resetEngine_w (s : State) :
    (resetEngine s).w = none := rfl

@[simp] theorem resetEngine_nonceBits (s : State) :
    (resetEngine s).nonceBits = none := rfl

@[simp] theorem resetEngine_ctrBits (s : State) :
    (resetEngine s).ctrBits = none := rfl

@[simp] theorem resetEngine_wv (s : State) :
    (resetEngine s).wv = false := rfl

@[simp] theorem resetEngine_cv (s : State) :
    (resetEngine s).cv = false := rfl

@[simp] theorem resetEngine_pending (s : State) :
    (resetEngine s).pending = s.pending := rfl

@[simp] theorem resetEngine_responses (s : State) :
    (resetEngine s).responses = s.responses := rfl

@[simp] theorem takeEvent_config (rest : List HostEvent) (s : State) :
    (takeEvent rest s).config = s.config := rfl

@[simp] theorem takeEvent_w (rest : List HostEvent) (s : State) :
    (takeEvent rest s).w = s.w := rfl

@[simp] theorem takeEvent_nonceBits (rest : List HostEvent) (s : State) :
    (takeEvent rest s).nonceBits = s.nonceBits := rfl

@[simp] theorem takeEvent_ctrBits (rest : List HostEvent) (s : State) :
    (takeEvent rest s).ctrBits = s.ctrBits := rfl

@[simp] theorem takeEvent_wv (rest : List HostEvent) (s : State) :
    (takeEvent rest s).wv = s.wv := rfl

@[simp] theorem takeEvent_cv (rest : List HostEvent) (s : State) :
    (takeEvent rest s).cv = s.cv := rfl

@[simp] theorem takeEvent_pending (rest : List HostEvent) (s : State) :
    (takeEvent rest s).pending = rest := rfl

@[simp] theorem takeEvent_responses (rest : List HostEvent) (s : State) :
    (takeEvent rest s).responses = s.responses := rfl

@[simp] theorem presentCommand_config (cmd : Bytes) (s : State) :
    (presentCommand cmd s).config = s.config := rfl

@[simp] theorem presentCommand_w (cmd : Bytes) (s : State) :
    (presentCommand cmd s).w = s.w := rfl

@[simp] theorem presentCommand_nonceBits (cmd : Bytes) (s : State) :
    (presentCommand cmd s).nonceBits = s.nonceBits := rfl

@[simp] theorem presentCommand_ctrBits (cmd : Bytes) (s : State) :
    (presentCommand cmd s).ctrBits = s.ctrBits := rfl

@[simp] theorem presentCommand_wv (cmd : Bytes) (s : State) :
    (presentCommand cmd s).wv = s.wv := rfl

@[simp] theorem presentCommand_cv (cmd : Bytes) (s : State) :
    (presentCommand cmd s).cv = s.cv := rfl

@[simp] theorem presentCommand_pending (cmd : Bytes) (s : State) :
    (presentCommand cmd s).pending = .command cmd :: s.pending := rfl

@[simp] theorem presentCommand_responses (cmd : Bytes) (s : State) :
    (presentCommand cmd s).responses = s.responses := rfl

/-- The values R22 gives, field by field. -/
@[simp] theorem reset_wv : State.reset.wv = false := rfl

@[simp] theorem reset_cv : State.reset.cv = false := rfl

@[simp] theorem reset_w : State.reset.w = none := rfl

@[simp] theorem reset_nonceBits : State.reset.nonceBits = none := rfl

@[simp] theorem reset_ctrBits : State.reset.ctrBits = none := rfl

@[simp] theorem reset_pending : State.reset.pending = [] := rfl

@[simp] theorem reset_responses : State.reset.responses = [] := rfl

@[simp] theorem reset_config : State.reset.config = Config.default := rfl

/-- The registers `NONCE` and `CTR` as commands read them, after each update. -/
@[simp] theorem putStream_nonce (st : Stream) (s : State) :
    (putStream st s).nonce = if st.cv then some st.nonce else none := rfl

@[simp] theorem putStream_ctr (st : Stream) (s : State) :
    (putStream st s).ctr = if st.cv then some st.ctr else none := rfl

@[simp] theorem putSchedule_nonce (W : Schedule) (s : State) :
    (putSchedule W s).nonce = s.nonce := rfl

@[simp] theorem putSchedule_ctr (W : Schedule) (s : State) :
    (putSchedule W s).ctr = s.ctr := rfl

@[simp] theorem respond_nonce (st : Status) (result : Bytes) (s : State) :
    (respond st result s).nonce = s.nonce := rfl

@[simp] theorem respond_ctr (st : Status) (result : Bytes) (s : State) :
    (respond st result s).ctr = s.ctr := rfl

@[simp] theorem takeEvent_nonce (rest : List HostEvent) (s : State) :
    (takeEvent rest s).nonce = s.nonce := rfl

@[simp] theorem takeEvent_ctr (rest : List HostEvent) (s : State) :
    (takeEvent rest s).ctr = s.ctr := rfl

@[simp] theorem presentCommand_nonce (cmd : Bytes) (s : State) :
    (presentCommand cmd s).nonce = s.nonce := rfl

@[simp] theorem presentCommand_ctr (cmd : Bytes) (s : State) :
    (presentCommand cmd s).ctr = s.ctr := rfl

@[simp] theorem resetEngine_nonce (s : State) :
    (resetEngine s).nonce = none := rfl

@[simp] theorem resetEngine_ctr (s : State) :
    (resetEngine s).ctr = none := rfl

@[simp] theorem reset_nonce : State.reset.nonce = none := rfl

@[simp] theorem reset_ctr : State.reset.ctr = none := rfl

end Sys2Proof.Machine
end

