-- ==== Sys2Proof/Laws/Ops.lean ====
section
/-!
SUPPORT. One lemma per shared operation that says what it can do.
-/

namespace Sys2Proof.Machine

@[simp] theorem finish_eq_next (st : Status) (result : Bytes) (s t : State) :
    finish st result s = .next t ↔ t = respond st result s := by
  simp [finish, eq_comm]

@[simp] theorem raise_eq_next (st : Status) (s t : State) :
    raise st s = .next t ↔ t = respond st [] s := by
  simp [raise]

theorem schedule?_eq_some (s : State) (W : Schedule) :
    schedule? s = some W ↔ s.wv = true ∧ s.w = some W := by
  cases h : s.wv <;> simp [schedule?, h]

theorem schedule?_of_wv_false (s : State) (h : s.wv = false) : schedule? s = none := by
  simp [schedule?, h]

theorem nonce_eq_some (s : State) (N : Nonce) : s.nonce = some N ↔ s.cv = true ∧ s.nonceBits = some N := by
  cases h : s.cv <;> simp [State.nonce, h]

theorem ctr_eq_some (s : State) (i : U64) : s.ctr = some i ↔ s.cv = true ∧ s.ctrBits = some i := by
  cases h : s.cv <;> simp [State.ctr, h]

/-- With `CV = 0` the registers of the stream are absent, whatever their bits (R23). -/
theorem nonce_of_cv_false (s : State) (h : s.cv = false) : s.nonce = none := by
  simp [State.nonce, h]

theorem ctr_of_cv_false (s : State) (h : s.cv = false) : s.ctr = none := by
  simp [State.ctr, h]

theorem stream?_eq_some (s : State) (st : Stream) :
    stream? s = some st ↔
      st.cv = true ∧ s.nonce = some st.nonce ∧ s.ctr = some st.ctr := by
  obtain ⟨n, i, v⟩ := st
  cases hn : s.nonce <;> cases hi : s.ctr <;> simp [stream?, hn, hi]
  tauto

theorem stream?_of_cv_false (s : State) (h : s.cv = false) : stream? s = none := by
  simp [stream?, nonce_of_cv_false s h]

/-- A key just loaded can be used. -/
@[simp] theorem schedule?_putSchedule (W : Schedule) (s : State) :
    schedule? (putSchedule W s) = some W := by
  simp [schedule?_eq_some]

/-- A stream just started can be continued. -/
@[simp] theorem stream?_putStream_start (nonce : Nonce) (s : State) :
    stream? (putStream (startStream nonce) s) = some (startStream nonce) := by
  simp [stream?_eq_some, startStream]

@[simp] theorem schedule?_putStream (st : Stream) (s : State) :
    schedule? (putStream st s) = schedule? s := rfl

@[simp] theorem schedule?_respond (st : Status) (result : Bytes) (s : State) :
    schedule? (respond st result s) = schedule? s := rfl

@[simp] theorem stream?_respond (st : Status) (result : Bytes) (s : State) :
    stream? (respond st result s) = stream? s := rfl

@[simp] theorem stream?_putSchedule (W : Schedule) (s : State) :
    stream? (putSchedule W s) = stream? s := rfl

theorem nextWork_idle (s : State) (h : s.pending = []) : nextWork s = .idle s := by
  simp [nextWork, h]

theorem nextWork_reset (s : State) (rest : List HostEvent) (h : s.pending = .reset :: rest) :
    nextWork s = .reset (takeEvent rest s) := by
  simp [nextWork, h]

theorem nextWork_command (s : State) (cmd : Bytes) (rest : List HostEvent)
    (h : s.pending = .command cmd :: rest) :
    nextWork s = presented cmd (takeEvent rest s) := by
  simp [nextWork, h]

end Sys2Proof.Machine
end

