-- ==== Sys2Proof/Laws/Commands.lean ====
section
/-!
SUPPORT. What each command with more than one outcome can answer, said once: if it answers `t`, then one of its cases holds.
-/

namespace Sys2Proof.Machine

theorem execEncblk_cases {block : Block} {s t : State} (h : execEncblk block s = .next t) :
    (schedule? s = none ∧ t = respond .eNokey [] s) ∨
      ∃ W, schedule? s = some W ∧ t = respond .ok (cipher block W).toList s := by
  unfold execEncblk at h
  split at h
  · exact .inl ⟨‹_›, by simpa using h⟩
  · exact .inr ⟨_, ‹_›, by simpa using h⟩

theorem execCtrblk_cases {block : Block} {s t : State} (h : execCtrblk block s = .next t) :
    (schedule? s = none ∧ t = respond .eNokey [] s) ∨
      (∃ W, schedule? s = some W ∧ stream? s = none ∧ t = respond .eNoctr [] s) ∨
      ∃ W st, schedule? s = some W ∧ stream? s = some st ∧
        t = respond .ok (blockXor block (keystream W st.nonce st.ctr)).toList (putStream (advance st) s) := by
  unfold execCtrblk at h
  split at h
  · exact .inl ⟨‹_›, by simpa using h⟩
  · split at h
    · exact .inr (.inl ⟨_, ‹_›, ‹_›, by simpa using h⟩)
    · exact .inr (.inr ⟨_, _, ‹_›, ‹_›, by simpa [blockStep_eq] using h⟩)

theorem execEncmsg_cases {nonce : Nonce} {pt : Bytes} {s t : State} (h : execEncmsg nonce pt s = .next t) :
    (tooManyBlocks (blockCount pt.length) = true ∧ t = respond .eLength [] s) ∨
      (tooManyBlocks (blockCount pt.length) = false ∧ schedule? s = none ∧ t = respond .eNokey [] s) ∨
      ∃ W, tooManyBlocks (blockCount pt.length) = false ∧ schedule? s = some W ∧
        t = respond .ok (base64Enc (encryptStream W nonce pt).1) (putStream (encryptStream W nonce pt).2 s) := by
  unfold execEncmsg at h
  split at h
  · exact .inl ⟨‹_›, by simpa using h⟩
  · have fits : tooManyBlocks (blockCount pt.length) = false := Bool.eq_false_iff.mpr ‹_›
    split at h
    · exact .inr (.inl ⟨fits, ‹_›, by simpa using h⟩)
    · exact .inr (.inr ⟨_, fits, ‹_›, by simpa using h⟩)

theorem execDecmsg_cases {text : Bytes} {s t : State} (h : execDecmsg text s = .next t) :
    (∃ e, statusIsError e = true ∧ t = respond e [] s) ∨
      ∃ W F p st, tooManyBlocks (textBlockCount s.config text) = false ∧ schedule? s = some W ∧
        base64Dec s.config.b64RejectNoncanonical text = some F ∧ 8 ≤ F.length ∧ (F.length - 8) % 16 = 0 ∧
        decryptStream s.config W F = (p, st) ∧
        ((validText s.config p = true ∧ t = respond .ok p (putStream st s)) ∨
          (validText s.config p = false ∧ t = respond .passthru text (putStream st s))) := by
  unfold execDecmsg at h
  split at h
  · exact .inl ⟨.eLength, by decide, by simpa using h⟩
  · have fits : tooManyBlocks (textBlockCount s.config text) = false := Bool.eq_false_iff.mpr ‹_›
    split at h
    · exact .inl ⟨.eNokey, by decide, by simpa using h⟩
    · split at h
      · exact .inl ⟨.eB64, by decide, by simpa using h⟩
      · split at h
        · exact .inl ⟨.eHeader, by decide, by simpa using h⟩
        · split at h
          · exact .inl ⟨.eRagged, by decide, by simpa using h⟩
          · rename_i W hW _ F hF hlen hragged
            refine .inr ⟨W, F, (decryptStream s.config W F).1, (decryptStream s.config W F).2, fits, hW, hF,
              by omega, by omega, rfl, ?_⟩
            simp only at h
            split at h
            · exact .inl ⟨‹_›, (finish_eq_next _ _ _ _).mp h⟩
            · exact .inr ⟨Bool.eq_false_iff.mpr ‹_›, (finish_eq_next _ _ _ _).mp h⟩

theorem execB64dec_cases {text : Bytes} {s t : State} (h : execB64dec text s = .next t) :
    (base64Dec s.config.b64RejectNoncanonical text = none ∧ t = respond .eB64 [] s) ∨
      ∃ d, base64Dec s.config.b64RejectNoncanonical text = some d ∧ t = respond .ok d s := by
  unfold execB64dec at h
  split at h
  · exact .inl ⟨‹_›, by simpa using h⟩
  · exact .inr ⟨_, ‹_›, by simpa using h⟩

end Sys2Proof.Machine
end

