-- ==== Sys2Proof/Laws/PerInstr.lean ====
section
/-!
SUPPORT. Per instruction: the shape of a command's byte string (spec/30_encoding.md R37, R38). The opcode comes first and
selects the format, and the length is one the format admits.
-/

namespace Sys2Proof.Laws.EncodeShape

/-- `encode i` is the opcode and then `i.operandLength` bytes, a length the opcode's format admits. -/
def Statement (i : Instr) : Prop :=
  (encode i).head? = some i.opcode ∧ (encode i).length = i.operandLength + 1 ∧
    ∃ f, formatOf i.opcode = some f ∧ f.fits (encode i).length = true

theorem setkey (key : Key) : Statement (.setkey key) := by
  refine ⟨rfl, ?_, .k, rfl, ?_⟩ <;> simp [encode, Instr.operand, Instr.operandLength, Format.fits]

theorem encblk (block : Block) : Statement (.encblk block) := by
  refine ⟨rfl, ?_, .b, rfl, ?_⟩ <;> simp [encode, Instr.operand, Instr.operandLength, Format.fits]

theorem derive (pw : Bytes) : Statement (.derive pw) := by
  refine ⟨rfl, ?_, .v, rfl, ?_⟩ <;> simp [encode, Instr.operand, Instr.operandLength, Format.fits]

theorem ctrinit (nonce : Nonce) : Statement (.ctrinit nonce) := by
  refine ⟨rfl, ?_, .n, rfl, ?_⟩ <;> simp [encode, Instr.operand, Instr.operandLength, Format.fits]

theorem ctrblk (block : Block) : Statement (.ctrblk block) := by
  refine ⟨rfl, ?_, .b, rfl, ?_⟩ <;> simp [encode, Instr.operand, Instr.operandLength, Format.fits]

theorem encmsg (nonce : Nonce) (pt : Bytes) : Statement (.encmsg nonce pt) := by
  refine ⟨rfl, ?_, .m, rfl, ?_⟩ <;> simp [encode, Instr.operand, Instr.operandLength, Format.fits]

theorem decmsg (text : Bytes) : Statement (.decmsg text) := by
  refine ⟨rfl, ?_, .v, rfl, ?_⟩ <;> simp [encode, Instr.operand, Instr.operandLength, Format.fits]

theorem b64enc (data : Bytes) : Statement (.b64enc data) := by
  refine ⟨rfl, ?_, .v, rfl, ?_⟩ <;> simp [encode, Instr.operand, Instr.operandLength, Format.fits]

theorem b64dec (text : Bytes) : Statement (.b64dec text) := by
  refine ⟨rfl, ?_, .v, rfl, ?_⟩ <;> simp [encode, Instr.operand, Instr.operandLength, Format.fits]

theorem rdstat : Statement .rdstat := by
  refine ⟨rfl, ?_, .z, rfl, ?_⟩ <;> simp [encode, Instr.operand, Instr.operandLength, Format.fits]

end Sys2Proof.Laws.EncodeShape
end

