-- ==== Sys2Proof/Tests/Slice0.lean ====
section
/-!
SUPPORT. Tests on one command each, with results from the tables and examples of the spec (named in each comment), and for
every statement with hypotheses a state and operands that meet them.
-/

namespace Sys2Proof.Tests

open Sys2Proof.Machine

/-- The ASCII codes of a text. -/
def asc (text : String) : Bytes := text.toList.map fun ch => BitVec.ofNat 8 ch.toNat

/-- A fresh engine to which one command is delivered. -/
def fresh (cmd : Bytes) : State := presentCommand cmd State.reset

/-- The response bytes of the last command. -/
def answer (r : Result) : Bytes :=
  match r with
  | .next s =>
    match s.responses.getLast? with
    | some x => responseBytes x
    | none => []
  | _ => []

/-- A word of `W` after a step. -/
def wordAfter (r : Result) (j : Fin 60) : Option Word :=
  match r with
  | .next s => s.w.map fun W => W[j]
  | _ => none

/-- The bits of `NONCE` and `CTR`, and `WV` and `CV`, after a step. -/
def streamAfter (r : Result) : Option (Option Bytes × Option U64 × Bool × Bool) :=
  match r with
  | .next s => some (s.nonceBits.map fun n => n.toList, s.ctrBits, s.wv, s.cv)
  | _ => none

/-- The engine after `DERIVE "secret"`, spec/95_test_vectors.md 4.2 (c). -/
def secretState : State := putSchedule (keyExpansion (deriveKey (asc "secret"))) State.reset

/-- The wire text of the source's known-answer vector, spec/95_test_vectors.md S3. -/
def s3Text : Bytes := asc "AAAAAAAAAACTrCPYN+ib5rRz+0RQx0qD"

/-- An engine with some schedule, for hypotheses about `W` only. -/
def keyed : State := putSchedule (Vector.replicate 60 ⟨0, 0, 0, 0⟩) State.reset

/-- An engine with another schedule. -/
def keyedOther : State := putSchedule (Vector.replicate 60 ⟨1, 0, 0, 0⟩) State.reset

/-- The first of them with a stream at a given index. -/
def keyedAt (i : U64) : State :=
  putStream { nonce := Vector.replicate 8 0, ctr := i, cv := true } keyed

/-! ## WellFormed: an ill-formed term for the check, in every format that has an operand -/

/-- Parameters with `MAX_OPERAND_BYTES = 3`. -/
def limit3 : Config := { Config.default with maxOperandBytes := some 3 }

theorem test_wellFormed_refuses_key :
    Instr.wellFormed limit3 (.setkey (Vector.replicate 32 0)) = false := by decide

theorem test_wellFormed_refuses_block :
    Instr.wellFormed limit3 (.encblk (Vector.replicate 16 0)) = false ∧
      Instr.wellFormed limit3 (.ctrblk (Vector.replicate 16 0)) = false := by decide

theorem test_wellFormed_refuses_nonce :
    Instr.wellFormed limit3 (.ctrinit (Vector.replicate 8 0)) = false := by decide

theorem test_wellFormed_refuses_data :
    Instr.wellFormed limit3 (.derive [1, 2, 3, 4]) = false ∧
      Instr.wellFormed limit3 (.decmsg [1, 2, 3, 4]) = false ∧
      Instr.wellFormed limit3 (.b64enc [1, 2, 3, 4]) = false ∧
      Instr.wellFormed limit3 (.b64dec [1, 2, 3, 4]) = false := by decide

/-- The nonce is part of the operand of ENCMSG (R37, R42). -/
theorem test_wellFormed_refuses_message :
    Instr.wellFormed limit3 (.encmsg (Vector.replicate 8 0) []) = false := by decide

theorem test_wellFormed_admits :
    Instr.wellFormed limit3 (.derive [1, 2, 3]) = true ∧
      Instr.wellFormed limit3 .rdstat = true := by decide

/-! ## Decoding words written out from R38 and R39, one for each constructor -/

theorem test_decode_setkey :
    decode Config.default (0x01 :: List.replicate 32 0x5A) = .ok (.setkey (Vector.replicate 32 0x5A)) := by
  decide

theorem test_decode_encblk :
    decode Config.default [0x02, 0, 1, 2, 3, 4, 5, 6, 7, 8, 9, 10, 11, 12, 13, 14, 15] =
      .ok (.encblk #v[0, 1, 2, 3, 4, 5, 6, 7, 8, 9, 10, 11, 12, 13, 14, 15]) := by decide

/-- spec/95_test_vectors.md program 1: `DERIVE "secret"` is `03736563726574`. -/
theorem test_decode_derive :
    decode Config.default [0x03, 0x73, 0x65, 0x63, 0x72, 0x65, 0x74] = .ok (.derive (asc "secret")) := by
  decide

/-- R87: `CTRINIT 0x0102030405060708` is `04 08 07 06 05 04 03 02 01`. -/
theorem test_decode_ctrinit :
    decode Config.default [0x04, 0x08, 0x07, 0x06, 0x05, 0x04, 0x03, 0x02, 0x01] =
      .ok (.ctrinit (le64 0x0102030405060708)) := by decide

theorem test_decode_ctrblk :
    decode Config.default [0x05, 15, 14, 13, 12, 11, 10, 9, 8, 7, 6, 5, 4, 3, 2, 1, 0] =
      .ok (.ctrblk #v[15, 14, 13, 12, 11, 10, 9, 8, 7, 6, 5, 4, 3, 2, 1, 0]) := by decide

/-- R91: `ENCMSG 0, "aha"` is `06 00 00 00 00 00 00 00 00 61 68 61`. -/
theorem test_decode_encmsg :
    decode Config.default [0x06, 0, 0, 0, 0, 0, 0, 0, 0, 0x61, 0x68, 0x61] =
      .ok (.encmsg (le64 0) (asc "aha")) := by decide

theorem test_decode_decmsg :
    decode Config.default [0x07, 0x21, 0x21] = .ok (.decmsg [0x21, 0x21]) := by decide

theorem test_decode_b64enc :
    decode Config.default [0x08, 0x66] = .ok (.b64enc [0x66]) := by decide

theorem test_decode_b64dec :
    decode Config.default [0x09, 0x5A, 0x67, 0x3D, 0x3D] = .ok (.b64dec (asc "Zg==")) := by decide

theorem test_decode_rdstat : decode Config.default [0x0A] = .ok .rdstat := by decide

/-- R41, R42: a reserved opcode, the empty command, and a length that does not fit. -/
theorem test_decode_rejects :
    decode Config.default [] = .error .illegal ∧ decode Config.default [0x00] = .error .illegal ∧
      decode Config.default [0x0B, 1, 2] = .error .illegal ∧ decode Config.default [0x0A, 0] = .error .length ∧
      decode Config.default [0x06, 0, 0, 0, 0, 0, 0, 0] = .error .length := by decide

/-- A table row's bits run as the first instruction after reset. -/
theorem test_table_word :
    decodeTableWord 8 0x0A = some .rdstat ∧ decodeTableWord 8 0x04 = some (.ctrinit (Vector.replicate 8 0)) ∧
      decodeTableWord 8 0x0B = none ∧
      answer (step (State.reset.withFetchWord 8 0x0A)) = [0x00, 0x00] := by decide

/-! ## The pure functions on the vectors of spec/95_test_vectors.md -/

/-- Section 4.1: `xtime` at its corners and `gmul`. -/
theorem test_field :
    xtime 0x7f = 0xfe ∧ xtime 0x80 = 0x1b ∧ xtime 0x8d = 0x01 ∧ gmul 0x57 0x13 = 0xfe ∧
      gmul 0x53 0xca = 0x01 ∧ gmul 0x0e 0x09 = gmul 0x09 0x0e ∧ gmul 0x09 0x0d = 0x65 := by decide

/-- R56: spot values of the table. -/
theorem test_sbox :
    sbox 0x00 = 0x63 ∧ sbox 0x52 = 0x00 ∧ sbox 0x53 = 0xed ∧ sbox 0xb4 = 0x8d ∧ sbox 0xff = 0x16 := by decide

/-- The source's S1 and S2, R75. -/
theorem test_mixColumn :
    mixColumn ⟨0xdb, 0x13, 0x53, 0x45⟩ = ⟨0x8e, 0x4d, 0xa1, 0xbc⟩ ∧
      mixColumn ⟨0xc6, 0xc6, 0xc6, 0xc6⟩ = ⟨0xc6, 0xc6, 0xc6, 0xc6⟩ := by decide

/-- R74: `ShiftRows` of the block `00 .. 0f`. -/
theorem test_shiftRows :
    (storeState (shiftRows (loadState #v[0, 1, 2, 3, 4, 5, 6, 7, 8, 9, 10, 11, 12, 13, 14, 15]))).toList =
      [0x00, 0x05, 0x0a, 0x0f, 0x04, 0x09, 0x0e, 0x03, 0x08, 0x0d, 0x02, 0x07, 0x0c, 0x01, 0x06, 0x0b] := by
  decide

/-- R86: the counter block of nonce `0x0102030405060708` and index 258. -/
theorem test_counterBlock :
    (counterBlock (le64 0x0102030405060708) 258).toList =
      [8, 7, 6, 5, 4, 3, 2, 1, 0, 0, 0, 0, 0, 0, 1, 2] := by decide

/-- R99: texts that decode and texts that do not, and the parameter of the last one. -/
theorem test_base64 :
    base64Enc (asc "fo") = asc "Zm8=" ∧ base64Dec true (asc "Zg==") = some (asc "f") ∧
      base64Dec true (asc "Zh==") = none ∧ base64Dec false (asc "Zh==") = some (asc "f") ∧
      base64Dec true (asc "Zg==Zg==") = none ∧ base64Dec true (asc "Z===") = none := by decide

/-- R92: the euro sign is valid, a surrogate, an overlong form and a cut sequence are not. -/
theorem test_validUtf8 :
    validUtf8 [0xE2, 0x82, 0xAC] = true ∧ validUtf8 [0xED, 0xA0, 0x80] = false ∧
      validUtf8 [0xC0, 0x80] = false ∧ validUtf8 [0xE2, 0x82] = false ∧ validUtf8 [] = true := by decide

/-- R93, section 4.4 M19: a final block of zeros, under either `STRIP_SCOPE`. -/
theorem test_stripZeros :
    (stripZeros .finalBlock [padBlock [0x61, 0x00], Vector.replicate 16 0]).length = 16 ∧
      stripZeros .wholeMessage [padBlock [0x61, 0x00], Vector.replicate 16 0] = [0x61] := by decide

/-- R46: lines of the assembler and a pseudo-command of R47. -/
theorem test_assemble :
    assemble "DERIVE \"secret\"" = some [[0x03, 0x73, 0x65, 0x63, 0x72, 0x65, 0x74]] ∧
      assemble "CTRINIT 0x0102030405060708" = some [[0x04, 8, 7, 6, 5, 4, 3, 2, 1]] ∧
      assemble "ENCMSG 258, h'6100'" = some [[0x06, 2, 1, 0, 0, 0, 0, 0, 0, 0x61, 0x00]] ∧
      assemble "DECRYPT \"Zg==\", h''" = some [[0x03], [0x07, 0x5A, 0x67, 0x3D, 0x3D]] ∧
      assemble "RDSTAT" = some [[0x0A]] ∧ assemble "ENCBLK h'00'" = none := by decide +kernel

/-! ## One command each -/

/-- R67: `SETKEY h'000102...1f'` leaves `W[8] = a573c29f` and `W[59] = 6d68de36`. -/
theorem test_setkey :
    wordAfter (step (fresh (0x01 :: (List.range 32).map (BitVec.ofNat 8 ·)))) 8 = some ⟨0xa5, 0x73, 0xc2, 0x9f⟩ ∧
      wordAfter (step (fresh (0x01 :: (List.range 32).map (BitVec.ofNat 8 ·)))) 59 =
        some ⟨0x6d, 0x68, 0xde, 0x36⟩ := by decide +kernel

/-- R117: `SETKEY` with 31 key bytes is `E_LENGTH`. -/
theorem test_setkey_short : answer (step (fresh (0x01 :: List.replicate 31 0))) = [0x81] := by decide

/-- R80, spec/95_test_vectors.md section 5 (a). -/
theorem test_encblk :
    answer (exec (.encblk #v[0x00, 0x11, 0x22, 0x33, 0x44, 0x55, 0x66, 0x77,
        0x88, 0x99, 0xaa, 0xbb, 0xcc, 0xdd, 0xee, 0xff])
      (putSchedule (keyExpansion (fieldOf 32 ((List.range 32).map (BitVec.ofNat 8 ·)))) State.reset)) =
      [0x00, 0x8e, 0xa2, 0xb7, 0xca, 0x51, 0x67, 0x45, 0xbf, 0xea, 0xfc, 0x49, 0x90, 0x4b, 0x49, 0x60, 0x89] := by
  decide +kernel

/-- R109, R117: a short `ENCBLK` on a fresh engine is `E_LENGTH`, a whole one `E_NOKEY`. -/
theorem test_encblk_errors :
    answer (step (fresh [0x02, 0, 0, 0, 0])) = [0x81] ∧
      answer (step (fresh (0x02 :: List.replicate 16 0))) = [0x82] := by decide

/-- R85: after `DERIVE "secret"`, `W[8] = d427f50b` and `W[59] = d2381efd`. -/
theorem test_derive :
    wordAfter (step (fresh (0x03 :: asc "secret"))) 8 = some ⟨0xd4, 0x27, 0xf5, 0x0b⟩ ∧
      wordAfter (step (fresh (0x03 :: asc "secret"))) 59 = some ⟨0xd2, 0x38, 0x1e, 0xfd⟩ := by decide +kernel

/-- R83, section 4.4: 40 bytes give the key of the first 32, and the empty password 32 zero bytes. -/
theorem test_padKey :
    padKey (List.replicate 40 0x61) = padKey (List.replicate 32 0x61) ∧ padKey [] = Vector.replicate 32 0 := by
  decide

/-- R87. -/
theorem test_ctrinit :
    streamAfter (step (fresh [0x04, 8, 7, 6, 5, 4, 3, 2, 1])) =
      some (some [8, 7, 6, 5, 4, 3, 2, 1], some 0, false, true) := by decide

/-- R88: the block `"aha"` zero-padded at nonce 0, index 0; `CTR` becomes 1. -/
theorem test_ctrblk :
    answer (exec (.ctrblk (padBlock (asc "aha"))) (putStream (startStream (le64 0)) secretState)) =
        [0x00, 0x93, 0xac, 0x23, 0xd8, 0x37, 0xe8, 0x9b, 0xe6, 0xb4, 0x73, 0xfb, 0x44, 0x50, 0xc7, 0x4a, 0x83] ∧
      streamAfter (exec (.ctrblk (padBlock (asc "aha"))) (putStream (startStream (le64 0)) secretState)) =
        some (some (List.replicate 8 0), some 1, true, true) := by decide +kernel

/-- R89, spec/95_test_vectors.md index exhaustion: `CTR = 0` and `CV = 0` after the last index. -/
theorem test_ctrblk_exhaustion :
    streamAfter (exec (.ctrblk (Vector.replicate 16 0)) (keyedAt (BitVec.allOnes 64))) =
      some (some (List.replicate 8 0), some 0, true, false) := by decide +kernel

/-- R23: after it the registers are absent (spec/93_implementation_defined.md U2: "no value, not zero"). -/
theorem test_ctrblk_exhaustion_absent :
    ∃ t, exec (.ctrblk (Vector.replicate 16 0)) (keyedAt (BitVec.allOnes 64)) = .next t ∧
      t.nonce = none ∧ t.ctr = none :=
  ⟨_, rfl, by decide +kernel, by decide +kernel⟩

/-- R91, the source's known-answer vector S3. -/
theorem test_encmsg : answer (exec (.encmsg (le64 0) (asc "aha")) secretState) = 0x00 :: s3Text := by
  decide +kernel

/-- R90, section 4.4 M5: the empty plaintext, 12 characters, `CTR = 0`. -/
theorem test_encmsg_empty :
    answer (exec (.encmsg (le64 0) []) keyed) = 0x00 :: asc "AAAAAAAAAAA=" ∧
      streamAfter (exec (.encmsg (le64 0) []) keyed) =
        some (some (List.replicate 8 0), some 0, true, true) := by decide +kernel

/-- R94, section 4.4 M2. -/
theorem test_decmsg : answer (exec (.decmsg s3Text) secretState) = 0x00 :: asc "aha" := by decide +kernel

/-- R114, section 4.4 X4: a tampered text that is no longer text comes back under `PASSTHRU`. -/
theorem test_decmsg_passthru :
    answer (exec (.decmsg (asc "AAAAAAAAAACTLCPYN+ib5rRz+0RQx0qD")) secretState) =
      0x01 :: asc "AAAAAAAAAACTLCPYN+ib5rRz+0RQx0qD" := by decide +kernel

/-- R100, R101. -/
theorem test_b64enc : answer (step (fresh [0x08, 0x66, 0x6f, 0x6f])) = 0x00 :: asc "Zm9v" := by decide

theorem test_b64dec :
    answer (step (fresh (0x09 :: asc "AAAAAAAAAAA="))) = 0x00 :: List.replicate 8 0 ∧
      answer (step (fresh (0x09 :: asc "AAAA*AAA"))) = [0x84] := by decide

/-- R122. -/
theorem test_rdstat :
    answer (step (fresh [0x0A])) = [0x00, 0x00] ∧ answer (exec .rdstat (keyedAt 0)) = [0x00, 0x03] := by decide

/-- R131: the reset event clears both flags. -/
theorem test_reset_event :
    streamAfter (step { keyedAt 5 with pending := [.reset] }) = some (none, none, false, false) := by decide

/-! ## Witnesses: for every statement with hypotheses, a state and operands that meet them -/

/-- DecodeOfEncodeGivesTheCommand, at the boundary of the operand limit. -/
theorem witness_DecodeOfEncodeGivesTheCommand :
    Instr.wellFormed { Config.default with maxOperandBytes := some 32 } (.setkey (Vector.replicate 32 0)) = true := by
  decide

theorem witness_EncodeOfDecodeGivesTheBytes : decode Config.default [0x0A] = .ok .rdstat := by decide

/-- IllegalCommandsRaiseEIllegal: the empty command, and the opcodes on either side of the legal range. -/
theorem witness_IllegalCommandsRaiseEIllegal :
    (fresh []).pending = .command [] :: [] ∧ (fresh [0x00]).pending = .command [0x00] :: [] ∧
      (fresh [0x0B, 1]).pending = .command [0x0B, 1] :: [] ∧ 0x0B ≤ (0x0B : Byte).toNat := by decide

/-- MisfittingLengthsRaiseELength: the opcodes at the ends of the range, and a misfit of each clause. -/
theorem witness_MisfittingLengthsRaiseELength :
    (fresh (0x01 :: List.replicate 33 0)).pending = .command (0x01 :: List.replicate 33 0) :: [] ∧
      0x01 ≤ (0x01 : Byte).toNat ∧ (0x0A : Byte).toNat ≤ 0x0A ∧
      decode Config.default (0x01 :: List.replicate 33 0) = .error .length ∧
      decode Config.default (0x02 :: List.replicate 15 0) = .error .length ∧
      decode Config.default (0x05 :: List.replicate 17 0) = .error .length ∧
      decode Config.default (0x04 :: List.replicate 7 0) = .error .length ∧
      decode Config.default (0x06 :: List.replicate 7 0) = .error .length ∧
      decode Config.default (0x0A :: [0]) = .error .length ∧
      decode limit3 (0x03 :: [1, 2, 3, 4]) = .error .length := by decide

/-- OverlongMessagesRaiseELength, first clause: the shortest plaintext of more than `2^64` blocks. -/
theorem witness_OverlongMessagesRaiseELength_encmsg :
    2 ^ 64 < ((List.replicate (2 ^ 68 + 1) (0 : Byte)).length + 15) / 16 := by
  rw [List.length_replicate]; decide

/-- A text of `4 (k + 1)` characters `A` decodes to `3 (k + 1)` zero bytes. -/
theorem base64Dec_replicate_A (reject : Bool) (k : Nat) :
    base64Dec reject (List.replicate (4 * (k + 1)) 0x41) = some (List.replicate (3 * (k + 1)) 0x00) := by
  induction k with
  | zero => cases reject <;> decide
  | succ k ih =>
    have split4 : List.replicate (4 * (k + 1 + 1)) (0x41 : Byte) =
        0x41 :: 0x41 :: 0x41 :: 0x41 :: 0x41 :: List.replicate (4 * k + 3) 0x41 := by
      rw [show 4 * (k + 1 + 1) = 4 * k + 3 + 1 + 1 + 1 + 1 + 1 by omega]
      simp [List.replicate_succ]
    have split1 : List.replicate (4 * (k + 1)) (0x41 : Byte) = 0x41 :: List.replicate (4 * k + 3) 0x41 := by
      rw [show 4 * (k + 1) = 4 * k + 3 + 1 by omega, List.replicate_succ]
    have group : decodeFull 0x41 0x41 0x41 0x41 = some [0x00, 0x00, 0x00] := by decide
    rw [split4, base64Dec, ← split1, ih, group]
    · rw [show 3 * (k + 1 + 1) = 3 * (k + 1) + 1 + 1 + 1 by omega]
      simp [List.replicate_succ]
    · simp

/-- OverlongMessagesRaiseELength, second clause: a text whose message has more than `2^64` blocks. -/
theorem witness_OverlongMessagesRaiseELength_decmsg :
    ∃ text F, base64Dec State.reset.config.b64RejectNoncanonical text = some F ∧ 2 ^ 64 < (F.length - 8) / 16 := by
  refine ⟨_, _, base64Dec_replicate_A _ (2 ^ 68), ?_⟩
  rw [List.length_replicate]; decide

theorem witness_NonceOperandIsLittleEndian : Config.default.maxOperandBytes = none := rfl

theorem witness_StepRunsTheDecodedCommand :
    (fresh [0x0A]).pending = .command [0x0A] :: [] ∧ decode (fresh [0x0A]).config [0x0A] = .ok .rdstat := by decide

theorem witness_OneCommandGivesOneResponse :
    ∃ t, (fresh [0x0A]).pending = .command [0x0A] :: [] ∧ step (fresh [0x0A]) = .next t :=
  ⟨_, rfl, rfl⟩

/-- ErrorsChangeNothing: `ENCBLK` on a fresh engine. -/
theorem witness_ErrorsChangeNothing :
    ∃ t r, (fresh (0x02 :: List.replicate 16 0)).pending = .command (0x02 :: List.replicate 16 0) :: [] ∧
      step (fresh (0x02 :: List.replicate 16 0)) = .next t ∧
      t.responses = (fresh (0x02 :: List.replicate 16 0)).responses ++ [r] ∧ statusIsError r.status = true :=
  ⟨_, { status := .eNokey, result := [] }, rfl, rfl, rfl, by decide⟩

theorem witness_ReissuedErrorFailsAgain :
    ∃ t r, exec (.encblk (Vector.replicate 16 0)) State.reset = .next t ∧
      t.responses = State.reset.responses ++ [r] ∧ statusIsError r.status = true :=
  ⟨_, { status := .eNokey, result := [] }, rfl, rfl, by decide⟩

theorem witness_ResetEventClearsTheRegisters :
    ({ keyedAt 5 with pending := [.reset] } : State).pending = .reset :: [] := rfl

theorem witness_OnlyResetClearsWv :
    ∃ t, step { keyedAt 5 with pending := [.reset] } = .next t ∧
      ({ keyedAt 5 with pending := [.reset] } : State).wv = true ∧ t.wv = false :=
  ⟨_, rfl, rfl, rfl⟩

/-- StepKeepsTheInvariant: a state with a key and a live stream meets it, and steps. -/
theorem witness_StepKeepsTheInvariant :
    ∃ s t : State, s.Inv ∧ s.wv = true ∧ s.cv = true ∧ step s = .next t := by
  refine ⟨putStream (startStream (Vector.replicate 8 0))
    (putSchedule (keyExpansion (Vector.replicate 32 0)) State.reset), _, ⟨rfl, ?_, rfl, rfl, rfl, ?_, ?_⟩,
    rfl, rfl, rfl⟩
  · intro W h
    simp only [putStream_w, putSchedule_w, Option.some.injEq] at h
    subst h
    decide +kernel
  · intro h
    cases h
  · simp

theorem witness_FrameOfKeyCommands :
    ∃ t u, exec (.setkey (Vector.replicate 32 0)) State.reset = .next t ∧
      exec (.derive []) State.reset = .next u :=
  ⟨_, _, rfl, rfl⟩

theorem witness_FrameOfCommandsThatWriteNothing :
    ∃ t u v w, exec (.encblk (Vector.replicate 16 0)) keyed = .next t ∧ exec (.b64enc []) keyed = .next u ∧
      exec (.b64dec []) keyed = .next v ∧ exec .rdstat keyed = .next w :=
  ⟨_, _, _, _, rfl, rfl, rfl, rfl⟩

theorem witness_FrameOfStreamCommands :
    ∃ t u v w, exec (.ctrinit (Vector.replicate 8 0)) (keyedAt 0) = .next t ∧
      exec (.ctrblk (Vector.replicate 16 0)) (keyedAt 0) = .next u ∧
      exec (.encmsg (Vector.replicate 8 0) []) (keyedAt 0) = .next v ∧ exec (.decmsg []) (keyedAt 0) = .next w :=
  ⟨_, _, _, _, rfl, rfl, rfl, rfl⟩

/-- SetkeyLoadsTheExpandedKey, second clause, on both sides of the length. -/
theorem witness_SetkeyLoadsTheExpandedKey :
    (fresh (0x01 :: List.replicate 31 0)).pending = .command (0x01 :: List.replicate 31 0) :: [] ∧
      (fresh (0x01 :: List.replicate 33 0)).pending = .command (0x01 :: List.replicate 33 0) :: [] ∧
      (List.replicate 31 (0 : Byte)).length ≠ 32 ∧ (List.replicate 33 (0 : Byte)).length ≠ 32 := by decide

theorem witness_EncblkAnswersTheCipherBlock :
    (∃ W, keyed.wv = true ∧ keyed.w = some W) ∧ State.reset.wv = false ∧
      (fresh (0x02 :: List.replicate 15 0)).pending = .command (0x02 :: List.replicate 15 0) :: [] ∧
      (List.replicate 15 (0 : Byte)).length ≠ 16 :=
  ⟨⟨_, rfl, rfl⟩, rfl, rfl, by decide⟩

/-- DeriveLoadsTheDoubledCiphertext, second clause, one byte over the limit. -/
theorem witness_DeriveLoadsTheDoubledCiphertext :
    ({ fresh [0x03, 1, 2, 3, 4] with config := limit3 } : State).pending = .command (0x03 :: [1, 2, 3, 4]) :: [] ∧
      limit3.maxOperandBytes = some 3 ∧ 3 < ([1, 2, 3, 4] : Bytes).length := by decide

theorem witness_CtrinitStartsTheStream :
    (fresh (0x04 :: List.replicate 7 0)).pending = .command (0x04 :: List.replicate 7 0) :: [] ∧
      (List.replicate 7 (0 : Byte)).length ≠ 8 := by decide

/-- CtrblkXorsTheKeystream: each clause, the first at the last index. -/
theorem witness_CtrblkXorsTheKeystream :
    (∃ W N, (keyedAt (BitVec.allOnes 64)).wv = true ∧ (keyedAt (BitVec.allOnes 64)).w = some W ∧
      (keyedAt (BitVec.allOnes 64)).cv = true ∧ (keyedAt (BitVec.allOnes 64)).nonce = some N ∧
      (keyedAt (BitVec.allOnes 64)).ctr = some (BitVec.allOnes 64)) ∧
    State.reset.wv = false ∧ (∃ W, keyed.wv = true ∧ keyed.w = some W ∧ keyed.cv = false) ∧
    (fresh (0x05 :: List.replicate 17 0)).pending = .command (0x05 :: List.replicate 17 0) :: [] ∧
    (List.replicate 17 (0 : Byte)).length ≠ 16 :=
  ⟨⟨_, _, rfl, rfl, rfl, rfl, rfl⟩, rfl, ⟨_, rfl, rfl, rfl⟩, rfl, by decide⟩

theorem witness_IndexExhaustionEndsTheStream :
    ∃ W N, (keyedAt (BitVec.allOnes 64)).wv = true ∧ (keyedAt (BitVec.allOnes 64)).w = some W ∧
      (keyedAt (BitVec.allOnes 64)).cv = true ∧ (keyedAt (BitVec.allOnes 64)).nonce = some N ∧
      (keyedAt (BitVec.allOnes 64)).ctr = some (BitVec.allOnes 64) :=
  ⟨_, _, rfl, rfl, rfl, rfl, rfl⟩

/-- EncmsgAnswersTheWireText and EncmsgEqualsTheBlockCommands: no block, and exactly `2^64` blocks. -/
theorem witness_EncmsgAnswersTheWireText :
    (∃ W, keyed.wv = true ∧ keyed.w = some W) ∧ 0 = (([] : Bytes).length + 15) / 16 ∧
      2 ^ 64 = ((List.replicate (2 ^ 68) (0 : Byte)).length + 15) / 16 ∧ State.reset.wv = false := by
  refine ⟨⟨_, rfl, rfl⟩, rfl, ?_, rfl⟩
  rw [List.length_replicate]; decide

theorem witness_EncmsgEqualsTheBlockCommands :
    (∃ W, keyed.wv = true ∧ keyed.w = some W) ∧ ((asc "aha").length + 15) / 16 ≤ 2 ^ 64 :=
  ⟨⟨_, rfl, rfl⟩, by decide⟩

/-- DecmsgOutcomes: a text for each clause; section 4.6 rows 23 to 30 of spec/95_test_vectors.md. -/
theorem witness_DecmsgOutcomes :
    (State.reset.wv = false ∧ ∀ F, base64Dec true (asc "!!!!") = some F → (F.length - 8) / 16 ≤ 2 ^ 64) ∧
    (∃ W, keyed.wv = true ∧ keyed.w = some W) ∧ keyed.config.b64RejectNoncanonical = true ∧
    base64Dec true (asc "!!!!") = none ∧
    (∃ F, base64Dec true (asc "AAAA") = some F ∧ F.length < 8) ∧
    (∃ F, base64Dec true (asc "AAAAAAAAAAAA") = some F ∧ 8 ≤ F.length ∧ (F.length - 8) / 16 ≤ 2 ^ 64 ∧
      (F.length - 8) % 16 ≠ 0) ∧
    (∃ F, base64Dec true (asc "AAAAAAAAAAA=") = some F ∧ F.length = 8 + 16 * 0) ∧
    (∃ F, base64Dec true s3Text = some F ∧ F.length = 8 + 16 * 1) := by
  have bad : base64Dec true (asc "!!!!") = none := by decide
  refine ⟨⟨rfl, ?_⟩, ⟨_, rfl, rfl⟩, rfl, bad, ⟨_, rfl, by decide⟩, ⟨_, rfl, by decide⟩, ⟨_, rfl, by decide⟩,
    ⟨_, rfl, by decide +kernel⟩⟩
  intro F h
  rw [bad] at h
  cases h

theorem witness_B64encAnswersTheText :
    ({ fresh [0x08, 1, 2, 3, 4] with config := limit3 } : State).pending = .command (0x08 :: [1, 2, 3, 4]) :: [] ∧
      limit3.maxOperandBytes = some 3 ∧ 3 < ([1, 2, 3, 4] : Bytes).length := by decide

theorem witness_B64decAnswersTheBytes :
    base64Dec State.reset.config.b64RejectNoncanonical (asc "Zg==") = some (asc "f") ∧
      base64Dec State.reset.config.b64RejectNoncanonical (asc "Zg=") = none ∧
      ({ fresh [0x09, 1, 2, 3, 4] with config := limit3 } : State).pending = .command (0x09 :: [1, 2, 3, 4]) :: [] ∧
      limit3.maxOperandBytes = some 3 ∧ 3 < ([1, 2, 3, 4] : Bytes).length := by decide

theorem witness_RdstatAnswersTheFlags :
    (fresh [0x0A, 0x00]).pending = .command (0x0A :: [0x00]) :: [] ∧ ([0x00] : Bytes) ≠ [] := by decide

/-- MessageRoundTrip: the text `"aha"`, and the empty text. -/
theorem witness_MessageRoundTrip :
    keyed.config = State.reset.config ∧ validText State.reset.config (asc "aha") = true ∧
      (asc "aha").getLast? ≠ some 0x00 ∧ ((asc "aha").length + 15) / 16 ≤ 2 ^ 64 ∧
      validText State.reset.config [] = true ∧ ([] : Bytes).getLast? ≠ some 0x00 := by decide

theorem witness_NonceReuseCancelsTheKeystream :
    ([padBlock (asc "aha")] : List Block)[0]? = some (padBlock (asc "aha")) ∧
      ([padBlock []] : List Block)[0]? = some (padBlock []) := by decide

theorem witness_TamperingFlipsTheSameBits :
    ([padBlock [0x03]] : List Block).length = ([padBlock (asc "aha")] : List Block).length := rfl

/-- EquivalentPasswordsLoadTheSameKey, first clause: two passwords that differ at byte 32 only. -/
theorem witness_EquivalentPasswordsLoadTheSameKey :
    (List.replicate 32 (0x61 : Byte) ++ [0x62]).take 32 = (List.replicate 32 (0x61 : Byte) ++ [0x63]).take 32 := by
  decide +kernel

/-- StripZerosCutsTrailingZerosOnly, last clause: the only nonzero byte is the last one, or the first one. -/
theorem witness_StripZerosCutsTrailingZerosOnly :
    (padBlock (List.replicate 15 0 ++ [1]))[15] ≠ 0x00 ∧ (padBlock [1])[0] ≠ 0x00 := by decide

theorem witness_CounterBlockLayout :
    counterBlock (le64 1) 0 = counterBlock (le64 1) 0 ∧ counterBlock (le64 1) 0 ≠ counterBlock (le64 0) 1 := by
  decide

theorem witness_WireTextLength :
    0 = (([] : Bytes).length + 15) / 16 ∧ 1 = ((asc "aha").length + 15) / 16 := by decide

theorem witness_EncodingUndoesDecoding : base64Dec true (asc "Zm8=") = some (asc "fo") := by decide

theorem witness_B64TextLengths :
    (asc "Zg==").length = 4 * 1 ∧ base64Dec true (asc "Zg==") = some (asc "f") ∧
      (List.replicate 8 (0 : Byte)).length = 8 + 16 * 0 := by decide

/-- MalformedTextsDoNotDecode: a text for each clause. -/
theorem witness_MalformedTextsDoNotDecode :
    (asc "Zg=").length % 4 ≠ 0 ∧
      (∃ b ∈ asc "Zm-_", ¬ ((0x41 ≤ b.toNat ∧ b.toNat ≤ 0x5A) ∨ (0x61 ≤ b.toNat ∧ b.toNat ≤ 0x7A) ∨
        (0x30 ≤ b.toNat ∧ b.toNat ≤ 0x39) ∨ b = 0x2B ∨ b = 0x2F ∨ b = 0x3D)) ∧
      (1 + 2 < (asc "Z===").length ∧ (asc "Z===")[1]? = some 0x3D) ∧
      (2 + 2 = (asc "Zm=v").length ∧ (asc "Zm=v")[2]? = some 0x3D ∧ (asc "Zm=v")[2 + 1]? ≠ some 0x3D) := by
  decide

/-- MalformedTextsDoNotDecode, the clauses on unused bits, after a whole group and alone: `"Zm9vZm9="` (`9` is 61) and R99's
`"Zh=="` (`h` is 33). -/
theorem witness_MalformedTextsDoNotDecode_unused_bits :
    base64Dec false (asc "Zm9v") = some (asc "foo") ∧ 0x3D ∉ asc "Zm9v" ∧
      base64Dec false [] = some [] ∧ 0x3D ∉ ([] : Bytes) ∧
      IsB64Char 25 0x5A ∧ IsB64Char 38 0x6D ∧ IsB64Char 61 0x39 ∧ 61 % 4 ≠ 0 ∧
      IsB64Char 33 0x68 ∧ 33 % 16 ≠ 0 := by
  unfold IsB64Char
  decide

/-- R99: `"Zh=="` fails by default and gives `"f"` with the parameter `false`. -/
theorem test_b64_unused_bits :
    base64Dec true (asc "Zh==") = none ∧ base64Dec false (asc "Zh==") = some (asc "f") := by decide

/-- DecodedGroupsFollowTheTable: a character of each row of R97, at both ends of each range. -/
theorem witness_DecodedGroupsFollowTheTable :
    IsB64Char 0 0x41 ∧ IsB64Char 25 0x5A ∧ IsB64Char 26 0x61 ∧ IsB64Char 51 0x7A ∧ IsB64Char 52 0x30 ∧
      IsB64Char 61 0x39 ∧ IsB64Char 62 0x2B ∧ IsB64Char 63 0x2F := by
  simp [IsB64Char]

theorem witness_SboxFollowsTheFormula : (0x53 : Byte) ≠ 0x00 := by decide

/-- RoundStepsByBlockPosition, KeyExpansionRecurrence, CipherRoundStructure: the last position, word and middle round. -/
theorem witness_index_bounds : 3 < 4 ∧ (8 ≤ 59 ∧ 59 < 60) ∧ (1 ≤ 13 ∧ 13 ≤ 13) := by decide

theorem witness_ResponseDependsOnRegistersOnly :
    (fresh [0x0A]).config = State.reset.config ∧ SameKey State.reset (fresh [0x0A]) ∧
      SameStream State.reset (fresh [0x0A]) :=
  ⟨rfl, ⟨rfl, rfl⟩, rfl, rfl, rfl⟩

/-- RegistersAreNotReadBack: two engines with different schedules, and a command that uses no key. -/
theorem witness_RegistersAreNotReadBack :
    keyedOther.config = keyed.config ∧ keyedOther.wv = keyed.wv ∧ keyedOther.cv = keyed.cv ∧
      keyedOther.w ≠ keyed.w ∧ (∀ block, Instr.rdstat ≠ .encblk block) ∧
      (∀ block, Instr.rdstat ≠ .ctrblk block) ∧ (∀ nonce pt, Instr.rdstat ≠ .encmsg nonce pt) ∧
      ∀ text, Instr.rdstat ≠ .decmsg text := by
  refine ⟨rfl, rfl, rfl, by decide +kernel, ?_, ?_, ?_, ?_⟩ <;> simp

/-- AbsentRegistersAreNotRead: two engines that differ in the bits of absent registers only. -/
theorem witness_AbsentRegistersAreNotRead :
    ({ keyedAt 5 with cv := false } : State).config = keyed.config ∧
      SameKey keyed { keyedAt 5 with cv := false } ∧ SameReadableStream keyed { keyedAt 5 with cv := false } ∧
      ({ keyedAt 5 with cv := false } : State).ctrBits ≠ keyed.ctrBits :=
  ⟨rfl, ⟨rfl, rfl⟩, ⟨rfl, rfl, rfl⟩, by decide⟩

theorem witness_PseudoCommandsForgetTheState :
    keyed.config = State.reset.config ∧
      (∃ pt pw n, pseudoEncrypt (asc "aha") (asc "secret") 0 = pseudoEncrypt pt pw n) ∧
      ∃ text pw, pseudoDecrypt s3Text (asc "secret") = pseudoDecrypt text pw :=
  ⟨rfl, ⟨_, _, _, rfl⟩, _, _, rfl⟩

end Sys2Proof.Tests
end

section
/-!
SUPPORT. What a command can do to the engine, said once as data: `Effect`. `exec_hasEffect` ties it to `exec`, and
`step_cases` to `step`; the statements about the registers (spec/10_state.md) are derived from these two.
-/

namespace Sys2Proof.Machine

/-! ## What a command reads -/

/-- `s'` looks like `s` to every command: equal parameters, equal key registers, and equal stream registers where these
are present (R23, R32). -/
structure SameView (s s' : State) : Prop where
  config : s'.config = s.config
  key : SameKey s s'
  stream : SameReadableStream s s'

theorem SameView.refl (s : State) : SameView s s :=
  ⟨rfl, ⟨rfl, rfl⟩, rfl, rfl, rfl⟩

theorem SameView.schedule?_eq {s s' : State} (v : SameView s s') : schedule? s' = schedule? s := by
  obtain ⟨hw, hwv⟩ := v.key
  simp [schedule?, hw, hwv]

theorem SameView.stream?_eq {s s' : State} (v : SameView s s') : stream? s' = stream? s := by
  obtain ⟨hnonce, hctr, -⟩ := v.stream
  simp [stream?, hnonce, hctr]

/-! ## What a command writes -/

/-- What a command does: it answers only, loads the schedule of a key, or writes the stream registers and answers. -/
inductive Effect where
  | answer (r : Response)
  | loadKey (key : Key)
  | setStream (st : Stream) (r : Response)

/-- The response a command with this effect gives. -/
def Effect.response : Effect → Response
  | .answer r => r
  | .loadKey _ => { status := .ok, result := [] }
  | .setStream _ r => r

/-- The registers after a command with this effect. -/
def Effect.write : Effect → State → State
  | .answer _, s => s
  | .loadKey key, s => putSchedule (keyExpansion key) s
  | .setStream st _, s => putStream st s

/-- The state after a command with this effect. -/
def Effect.apply (e : Effect) (s : State) : State :=
  respond e.response.status e.response.result (e.write s)

/-- R14, R89: a stream with `CV = 0` has come to index 0. -/
def Stream.ClearAtZero (st : Stream) : Prop :=
  st.cv = false → st.ctr = 0

/-- The effects R106 and R118 allow: an error carries no result and writes no register; and R89 for the stream. -/
def Effect.Sound : Effect → Prop
  | .answer r => r.Bare
  | .loadKey _ => True
  | .setStream st r => statusIsError r.status = false ∧ st.ClearAtZero

theorem Effect.Sound.bare {e : Effect} (h : e.Sound) : e.response.Bare := by
  cases e with
  | answer r => exact h
  | loadKey key => exact fun _ => rfl
  | setStream st r =>
    obtain ⟨hok, -⟩ := h
    intro herr
    simp [Effect.response, hok] at herr

theorem Effect.answered (e : Effect) (s : State) : Answered s (e.apply s) e.response := by
  cases e <;> rfl

/-- States that look alike still do after the same effect. -/
theorem Effect.sameView_apply (e : Effect) {s s' : State} (v : SameView s s') : SameView (e.apply s) (e.apply s') := by
  obtain ⟨hconfig, ⟨hw, hwv⟩, hnonce, hctr, hcv⟩ := v
  cases e with
  | answer r => exact ⟨hconfig, ⟨hw, hwv⟩, hnonce, hctr, hcv⟩
  | loadKey key => exact ⟨hconfig, ⟨rfl, rfl⟩, hnonce, hctr, hcv⟩
  | setStream st r => exact ⟨hconfig, ⟨hw, hwv⟩, rfl, rfl, rfl⟩

/-! ## The streams commands write -/

theorem clearAtZero_advance {st : Stream} (h : st.cv = true) : (advance st).ClearAtZero := by
  intro hcv
  have hcv' : cvAfterAdvance (st.ctr + 1) true = false := h ▸ hcv
  simpa [cvAfterAdvance] using hcv'

/-- Within the index space the run of a message clears `CV` only when the index comes to 0 (R89, R90). -/
theorem clearAtZero_runBlocks (W : Schedule) (nonce : Nonce) {bs : List Block} (h : bs.length ≤ 2 ^ 64) :
    (runBlocks W (startStream nonce) bs).2.ClearAtZero := by
  have hrun := runBlocks_stream W nonce bs 0 (by decide) (by omega)
  rw [Nat.zero_add] at hrun
  intro hcv
  have hlen : bs.length = 2 ^ 64 := by simpa [startStream, hrun] using hcv
  simp [startStream, hrun, hlen]

theorem tooManyBlocks_eq_false (n : Nat) : tooManyBlocks n = false ↔ n ≤ 2 ^ 64 := by
  simp [tooManyBlocks]

theorem clearAtZero_encryptStream (W : Schedule) (nonce : Nonce) {pt : Bytes}
    (h : tooManyBlocks (blockCount pt.length) = false) : (encryptStream W nonce pt).2.ClearAtZero :=
  clearAtZero_runBlocks W nonce (by simpa [tooManyBlocks_eq_false] using h)

theorem clearAtZero_decryptStream (c : Config) (W : Schedule) {text F : Bytes}
    (hF : base64Dec c.b64RejectNoncanonical text = some F) (hfits : tooManyBlocks (textBlockCount c text) = false)
    (hwhole : (F.length - 8) % 16 = 0) : (decryptStream c W F).2.ClearAtZero := by
  have hcount : (F.length - 8) / 16 ≤ 2 ^ 64 := by
    simpa only [tooManyBlocks_eq_false, textBlockCount, hF] using hfits
  refine clearAtZero_runBlocks W _ ?_
  rw [splitBlocks_length, List.length_drop, blockCount]
  omega

/-! ## Every command has one effect on all states that look alike -/

/-- What `run` does on `s` and on every state that looks like it is one sound effect. -/
def HasEffect (run : State → Result) (s : State) : Prop :=
  ∃ e : Effect, e.Sound ∧ ∀ s', SameView s s' → run s' = .next (e.apply s')

/-- `OK` is no error, so it may carry a result (R106). -/
theorem bare_ok (result : Bytes) : ({ status := .ok, result := result } : Response).Bare :=
  fun herr => absurd herr (by decide : ¬statusIsError .ok = true)

/-- `raise` of an error in all states that look alike. -/
theorem hasEffect_of_raise {run : State → Result} {s : State} (st : Status)
    (h : ∀ s', SameView s s' → run s' = raise st s') : HasEffect run s :=
  ⟨.answer { status := st, result := [] }, fun _ => rfl, h⟩

/-- A result without an error in all states that look alike. -/
theorem hasEffect_of_finish_ok {run : State → Result} {s : State} (result : Bytes)
    (h : ∀ s', SameView s s' → run s' = finish .ok result s') : HasEffect run s :=
  ⟨.answer { status := .ok, result := result }, bare_ok result, h⟩

theorem hasEffect_of_putStream {run : State → Result} {s : State} (st : Status) (result : Bytes) (stream : Stream)
    (hok : statusIsError st = false) (hclear : stream.ClearAtZero)
    (h : ∀ s', SameView s s' → run s' = finish st result (putStream stream s')) : HasEffect run s :=
  ⟨.setStream stream { status := st, result := result }, ⟨hok, hclear⟩, h⟩

theorem execEncblk_hasEffect (block : Block) (s : State) : HasEffect (execEncblk block) s := by
  cases hW : schedule? s with
  | none => exact hasEffect_of_raise .eNokey fun s' v => by simp [execEncblk, v.schedule?_eq, hW]
  | some W =>
    exact hasEffect_of_finish_ok (cipher block W).toList fun s' v => by simp [execEncblk, v.schedule?_eq, hW]

theorem execCtrblk_hasEffect (block : Block) (s : State) : HasEffect (execCtrblk block) s := by
  cases hW : schedule? s with
  | none => exact hasEffect_of_raise .eNokey fun s' v => by simp [execCtrblk, v.schedule?_eq, hW]
  | some W =>
    cases hst : stream? s with
    | none =>
      exact hasEffect_of_raise .eNoctr fun s' v => by simp [execCtrblk, v.schedule?_eq, v.stream?_eq, hW, hst]
    | some st =>
      obtain ⟨hcv, -, -⟩ := (stream?_eq_some s st).mp hst
      exact hasEffect_of_putStream .ok (blockStep W st block).1.toList (advance st) (by decide)
        (clearAtZero_advance hcv) fun s' v => by
          simp [execCtrblk, v.schedule?_eq, v.stream?_eq, hW, hst, blockStep_eq]

theorem execEncmsg_hasEffect (nonce : Nonce) (pt : Bytes) (s : State) : HasEffect (execEncmsg nonce pt) s := by
  cases hfits : tooManyBlocks (blockCount pt.length) with
  | true => exact hasEffect_of_raise .eLength fun s' v => by simp [execEncmsg, hfits]
  | false =>
    cases hW : schedule? s with
    | none => exact hasEffect_of_raise .eNokey fun s' v => by simp [execEncmsg, hfits, v.schedule?_eq, hW]
    | some W =>
      exact hasEffect_of_putStream .ok (base64Enc (encryptStream W nonce pt).1) (encryptStream W nonce pt).2
        (by decide) (clearAtZero_encryptStream W nonce hfits) fun s' v => by
          simp [execEncmsg, hfits, v.schedule?_eq, hW]

theorem execDecmsg_hasEffect (text : Bytes) (s : State) : HasEffect (execDecmsg text) s := by
  cases hfits : tooManyBlocks (textBlockCount s.config text) with
  | true => exact hasEffect_of_raise .eLength fun s' v => by simp [execDecmsg, v.config, hfits]
  | false =>
  cases hW : schedule? s with
  | none => exact hasEffect_of_raise .eNokey fun s' v => by simp [execDecmsg, v.config, hfits, v.schedule?_eq, hW]
  | some W =>
  cases hF : base64Dec s.config.b64RejectNoncanonical text with
  | none =>
    exact hasEffect_of_raise .eB64 fun s' v => by simp [execDecmsg, v.config, hfits, v.schedule?_eq, hW, hF]
  | some F =>
  have hrun (s' : State) (v : SameView s s') : execDecmsg text s' =
      if F.length < 8 then raise .eHeader s'
      else if (F.length - 8) % 16 ≠ 0 then raise .eRagged s'
      else if validText s.config (decryptStream s.config W F).1 then
        finish .ok (decryptStream s.config W F).1 (putStream (decryptStream s.config W F).2 s')
      else finish .passthru text (putStream (decryptStream s.config W F).2 s') := by
    simp [execDecmsg, v.config, hfits, v.schedule?_eq, hW, hF]
  by_cases hheader : F.length < 8
  · exact hasEffect_of_raise .eHeader fun s' v => by rw [hrun s' v, if_pos hheader]
  by_cases hragged : (F.length - 8) % 16 ≠ 0
  · exact hasEffect_of_raise .eRagged fun s' v => by rw [hrun s' v, if_neg hheader, if_pos hragged]
  have hclear := clearAtZero_decryptStream s.config W hF hfits (not_not.mp hragged)
  by_cases hvalid : validText s.config (decryptStream s.config W F).1 = true
  · exact hasEffect_of_putStream .ok _ _ (by decide) hclear fun s' v => by
      rw [hrun s' v, if_neg hheader, if_neg hragged, if_pos hvalid]
  · exact hasEffect_of_putStream .passthru _ _ (by decide) hclear fun s' v => by
      rw [hrun s' v, if_neg hheader, if_neg hragged, if_neg hvalid]

/-- `B64DEC` reads the parameters only. -/
theorem execB64dec_effect (c : Config) (text : Bytes) :
    ∃ r : Response, r.Bare ∧ ∀ s, s.config = c → execB64dec text s = .next ((Effect.answer r).apply s) := by
  cases hd : base64Dec c.b64RejectNoncanonical text with
  | none =>
    exact ⟨{ status := .eB64, result := [] }, fun _ => rfl, fun s hs => by simp only [execB64dec, hs, hd]; rfl⟩
  | some d =>
    exact ⟨{ status := .ok, result := d }, bare_ok d, fun s hs => by simp only [execB64dec, hs, hd]; rfl⟩

theorem execB64dec_hasEffect (text : Bytes) (s : State) : HasEffect (execB64dec text) s := by
  obtain ⟨r, hbare, hexec⟩ := execB64dec_effect s.config text
  exact ⟨.answer r, hbare, fun s' v => hexec s' v.config⟩

theorem execRdstat_hasEffect (s : State) : HasEffect execRdstat s :=
  hasEffect_of_finish_ok [statusByte s.wv s.cv] fun s' v => by
    obtain ⟨-, hwv⟩ := v.key
    obtain ⟨-, -, hcv⟩ := v.stream
    rw [execRdstat, hwv, hcv]

theorem exec_hasEffect (i : Instr) (s : State) : HasEffect (exec i) s := by
  cases i with
  | setkey key => exact ⟨.loadKey key, trivial, fun _ _ => rfl⟩
  | encblk block => exact execEncblk_hasEffect block s
  | derive pw => exact ⟨.loadKey (deriveKey pw), trivial, fun _ _ => rfl⟩
  | ctrinit nonce =>
    exact hasEffect_of_putStream .ok [] (startStream nonce) (by decide) (fun hcv => nomatch hcv) fun _ _ => rfl
  | ctrblk block => exact execCtrblk_hasEffect block s
  | encmsg nonce pt => exact execEncmsg_hasEffect nonce pt s
  | decmsg text => exact execDecmsg_hasEffect text s
  | b64enc data => exact hasEffect_of_finish_ok (base64Enc data) fun _ _ => rfl
  | b64dec text => exact execB64dec_hasEffect text s
  | rdstat => exact execRdstat_hasEffect s

/-! ## What a step can do -/

/-- A step leaves the state as it is, or resets the registers, or has a sound effect once the command is off the
port. -/
theorem step_cases (s : State) :
    (s.pending = [] ∧ step s = .next s) ∨
      (∃ rest, s.pending = .reset :: rest ∧ step s = .next (resetEngine (takeEvent rest s))) ∨
      ∃ cmd rest, ∃ e : Effect, s.pending = .command cmd :: rest ∧ e.Sound ∧
        step s = .next (e.apply (takeEvent rest s)) := by
  match hp : s.pending with
  | [] => exact .inl ⟨rfl, by rw [step, nextWork_idle s hp]⟩
  | .reset :: rest => exact .inr (.inl ⟨rest, rfl, by rw [step, nextWork_reset s rest hp]⟩)
  | .command cmd :: rest =>
    refine .inr (.inr ?_)
    cases hd : decode s.config cmd with
    | ok i =>
      obtain ⟨e, hsound, hexec⟩ := exec_hasEffect i (takeEvent rest s)
      refine ⟨cmd, rest, e, rfl, hsound, ?_⟩
      simpa [step, nextWork_command s cmd rest hp, presented, hd] using hexec _ (.refl _)
    | error err =>
      refine ⟨cmd, rest, .answer { status := decodeErrorStatus err, result := [] }, rfl, fun _ => rfl, ?_⟩
      simp [step, nextWork_command s cmd rest hp, presented, hd, Effect.apply, Effect.response, Effect.write]

theorem run_succ_of_step_eq_next {s u : State} (h : step s = .next u) (k : Nat) :
    Sys2Proof.core.run (k + 1) s = Sys2Proof.core.run k u := by
  have hcore : Sys2Proof.core.step s = .next u := h
  simp only [Host.Core.run, hcore]

/-- A property that every step keeps, and that keeps a step from stopping, holds after any number of steps. -/
theorem run_of_step_keeps {P : State → Prop} (hstep : ∀ s, P s → ∃ t, step s = .next t ∧ P t) (k : Nat) :
    ∀ s, P s → ∃ t, Sys2Proof.core.run k s = .next t ∧ P t := by
  induction k with
  | zero => exact fun s hs => ⟨s, rfl, hs⟩
  | succ k ih =>
    intro s hs
    obtain ⟨u, hu, hPu⟩ := hstep s hs
    obtain ⟨t, ht, hPt⟩ := ih u hPu
    exact ⟨t, (run_succ_of_step_eq_next hu k).trans ht, hPt⟩

/-! ## The schedule of a key begins with the key -/

theorem expandWords_getElem_of_lt (k : Key) (n : Nat) (hn : n ≤ 52) (j : Nat) (hj : j < 8) :
    (expandWords k n hn)[j] = keyWord k ⟨j, hj⟩ := by
  induction n with
  | zero => simp [expandWords]
  | succ n ih =>
    rw [expandWords, Vector.getElem_push_lt (by omega)]
    exact ih _

theorem keyExpansion_getElem_of_lt (k : Key) (j : Nat) (hj : j < 8) :
    (keyExpansion k)[j] = keyWord k ⟨j, hj⟩ :=
  expandWords_getElem_of_lt k 52 _ j hj

theorem wordGet_keyWord (k : Key) (j : Fin 8) (r : Fin 4) : wordGet (keyWord k j) r = k[4 * j.val + r.val] := by
  fin_cases r <;> rfl

@[simp] theorem scheduleKey_keyExpansion (k : Key) : scheduleKey (keyExpansion k) = k := by
  ext j hj
  have hsplit : 4 * (j / 4) + j % 4 = j := Nat.div_add_mod j 4
  simp [scheduleKey, keyExpansion_getElem_of_lt k (j / 4) (by omega), wordGet_keyWord, hsplit]

/-! ## The operations keep the invariant -/

theorem State.Inv.respond {s : State} (h : s.Inv) (r : Response) (hr : r.Bare) :
    (respond r.status r.result s).Inv :=
  { h with
    errors_bare := by
      intro r' hr'
      rw [respond_responses, List.mem_append, List.mem_singleton] at hr'
      rcases hr' with hold | rfl
      · exact h.errors_bare r' hold
      · exact hr }

theorem State.Inv.putSchedule {s : State} (h : s.Inv) (key : Key) : (putSchedule (keyExpansion key) s).Inv :=
  { h with
    wv_iff_present := rfl
    w_is_expansion := by
      intro W hW
      obtain rfl : keyExpansion key = W := by simpa using hW
      rw [scheduleKey_keyExpansion] }

theorem State.Inv.putStream {s : State} (h : s.Inv) {st : Stream} (hst : st.ClearAtZero) : (putStream st s).Inv :=
  { h with
    cv_iff_nonce_present := by cases hcv : st.cv <;> simp [hcv]
    cv_iff_ctr_present := by cases hcv : st.cv <;> simp [hcv]
    bits_together := rfl
    cv_clear := fun hcv => .inr (congrArg some (hst hcv)) }

theorem State.Inv.takeEvent {s : State} (h : s.Inv) (rest : List HostEvent) : (takeEvent rest s).Inv :=
  { h with }

/-- Flags at 0 and registers without value meet the invariant, whatever the port holds. -/
theorem inv_resetEngine {s : State} (h : ∀ r ∈ s.responses, r.Bare) : (resetEngine s).Inv where
  wv_iff_present := rfl
  w_is_expansion := fun _ hW => nomatch hW
  cv_iff_nonce_present := rfl
  cv_iff_ctr_present := rfl
  bits_together := rfl
  cv_clear := fun _ => .inl rfl
  errors_bare := h

theorem State.Inv.apply {s : State} (h : s.Inv) {e : Effect} (he : e.Sound) : (e.apply s).Inv := by
  refine State.Inv.respond ?_ e.response he.bare
  cases e with
  | answer r => exact h
  | loadKey key => exact h.putSchedule key
  | setStream st r =>
    obtain ⟨-, hclear⟩ := he
    exact h.putStream hclear

theorem State.Inv.step {s : State} (h : s.Inv) : ∃ t, step s = .next t ∧ t.Inv := by
  obtain ⟨-, hs⟩ | ⟨rest, -, hs⟩ | ⟨cmd, rest, e, -, hsound, hs⟩ := step_cases s
  · exact ⟨_, hs, h⟩
  · exact ⟨_, hs, inv_resetEngine h.errors_bare⟩
  · exact ⟨_, hs, (h.takeEvent rest).apply hsound⟩

/-- Settles O15: every step is one of `step_cases`, and each of them keeps the invariant. -/
theorem stepKeepsTheInvariant : Obligations.StepKeepsTheInvariant := by
  intro s t h hstep
  obtain ⟨u, hu, hinv⟩ := h.step
  obtain rfl : u = t := by simpa [hu] using hstep
  exact hinv

/-- The state a run begins in, for any parameters and any events delivered. -/
theorem inv_reset_with (c : Config) (events : List HostEvent) :
    ({ State.reset with config := c, pending := events } : State).Inv :=
  inv_resetEngine (s := { State.reset with config := c, pending := events }) fun _ hr => nomatch hr

/-- Settles O16: the state after reset is one that a reset event leaves. -/
theorem resetMeetsTheInvariant : Obligations.ResetMeetsTheInvariant :=
  ⟨inv_reset_with Config.default [], rfl, rfl, rfl, rfl, rfl, rfl, rfl⟩

/-- Settles O57: the invariant holds at reset and along every run, and it says when a register is present. -/
theorem presenceFollowsTheFlags : Obligations.PresenceFollowsTheFlags := by
  intro c events k
  obtain ⟨t, hrun, hinv⟩ := run_of_step_keeps (fun s hs => hs.step) k _ (inv_reset_with c events)
  exact ⟨t, hrun, hinv.wv_iff_present, hinv.cv_iff_nonce_present, hinv.cv_iff_ctr_present⟩

/-! ## Frames and noninterference -/

theorem sameKey_samePort_respond (st : Status) (result : Bytes) (s : State) :
    SameKey s (respond st result s) ∧ SamePort s (respond st result s) :=
  ⟨⟨rfl, rfl⟩, rfl, rfl⟩

theorem sameKey_samePort_respond_putStream (st : Status) (result : Bytes) (stream : Stream) (s : State) :
    SameKey s (respond st result (putStream stream s)) ∧ SamePort s (respond st result (putStream stream s)) :=
  ⟨⟨rfl, rfl⟩, rfl, rfl⟩

/-- R88, R89: the advance leaves the bits of `NONCE`, so `CTRBLK` writes back what it read. -/
theorem execCtrblk_nonceBits {block : Block} {s t : State} (h : execCtrblk block s = .next t) :
    t.nonceBits = s.nonceBits := by
  obtain ⟨-, rfl⟩ | ⟨W, -, -, rfl⟩ | ⟨W, st, -, hst, rfl⟩ := execCtrblk_cases h
  · rfl
  · rfl
  · obtain ⟨-, hnonce, -⟩ := (stream?_eq_some s st).mp hst
    obtain ⟨-, hbits⟩ := (nonce_eq_some s st.nonce).mp hnonce
    simp [hbits]

/-- Settles O19: whatever these commands answer, they write the stream registers or nothing. -/
theorem frameOfStreamCommands : Obligations.FrameOfStreamCommands := by
  refine ⟨fun s t nonce block bytes h => ?_, fun s t block h => execCtrblk_nonceBits h⟩
  rcases h with h | h | h | h
  · obtain rfl := (finish_eq_next _ _ _ _).mp h
    exact sameKey_samePort_respond_putStream ..
  · obtain ⟨-, rfl⟩ | ⟨W, -, -, rfl⟩ | ⟨W, st, -, -, rfl⟩ := execCtrblk_cases h
    · exact sameKey_samePort_respond ..
    · exact sameKey_samePort_respond ..
    · exact sameKey_samePort_respond_putStream ..
  · obtain ⟨-, rfl⟩ | ⟨-, -, rfl⟩ | ⟨W, -, -, rfl⟩ := execEncmsg_cases h
    · exact sameKey_samePort_respond ..
    · exact sameKey_samePort_respond ..
    · exact sameKey_samePort_respond_putStream ..
  · obtain ⟨e, -, rfl⟩ | ⟨W, F, p, st, -, -, -, -, -, -, ⟨-, rfl⟩ | ⟨-, rfl⟩⟩ := execDecmsg_cases h
    · exact sameKey_samePort_respond ..
    · exact sameKey_samePort_respond_putStream ..
    · exact sameKey_samePort_respond_putStream ..

/-- Settles O60: the effect on one engine is the effect on every engine that looks like it. -/
theorem absentRegistersAreNotRead : Obligations.AbsentRegistersAreNotRead := by
  intro i s s' hconfig hkey hstream
  have v : SameView s s' := ⟨hconfig, hkey, hstream⟩
  obtain ⟨e, -, hexec⟩ := exec_hasEffect i s
  have v' := e.sameView_apply v
  exact ⟨e.apply s, e.apply s', e.response, hexec s (.refl s), hexec s' v, v'.key, v'.stream, e.answered s,
    e.answered s'⟩

/-- Two engines on which a command has the same effect get the same response. -/
theorem answeredAlike_of_effect {i : Instr} {s s' : State} (e : Effect) (h : exec i s = .next (e.apply s))
    (h' : exec i s' = .next (e.apply s')) :
    ∃ (t t' : State) (r : Response), exec i s = .next t ∧ exec i s' = .next t' ∧
      Answered s t r ∧ Answered s' t' r :=
  ⟨e.apply s, e.apply s', e.response, h, h', e.answered s, e.answered s'⟩

/-- Settles O54: command by command, the effect is a function of the operands, the parameters and the flags. -/
theorem registersAreNotReadBack : Obligations.RegistersAreNotReadBack := by
  intro s s' i hconfig hwv hcv hencblk hctrblk hencmsg hdecmsg
  cases i with
  | encblk block => exact absurd rfl (hencblk block)
  | ctrblk block => exact absurd rfl (hctrblk block)
  | encmsg nonce pt => exact absurd rfl (hencmsg nonce pt)
  | decmsg text => exact absurd rfl (hdecmsg text)
  | setkey key => exact answeredAlike_of_effect (.loadKey key) rfl rfl
  | derive pw => exact answeredAlike_of_effect (.loadKey (deriveKey pw)) rfl rfl
  | ctrinit nonce =>
    exact answeredAlike_of_effect (.setStream (startStream nonce) { status := .ok, result := [] }) rfl rfl
  | b64enc data =>
    exact answeredAlike_of_effect (.answer { status := .ok, result := base64Enc data }) rfl rfl
  | b64dec text =>
    obtain ⟨r, -, hexec⟩ := execB64dec_effect s.config text
    exact answeredAlike_of_effect (.answer r) (hexec s rfl) (hexec s' hconfig)
  | rdstat =>
    refine answeredAlike_of_effect (.answer { status := .ok, result := [statusByte s.wv s.cv] }) rfl ?_
    rw [exec, execRdstat, hwv, hcv]
    rfl

end Sys2Proof.Machine
end

section
namespace Sys2Proof.Machine

/-! ## Determinism: equal registers give equal effects -/

/-- Stream registers equal to the bit are equal as far as a command reads them. -/
theorem SameStream.readable {s s' : State} (h : SameStream s s') : SameReadableStream s s' := by
  obtain ⟨hnonce, hctr, hcv⟩ := h
  exact ⟨by rw [State.nonce, State.nonce, hnonce, hcv], by rw [State.ctr, State.ctr, hctr, hcv], hcv⟩

/-- Stream registers equal to the bit stay so under the same effect. -/
theorem Effect.sameStream_apply (e : Effect) {s s' : State} (h : SameStream s s') :
    SameStream (e.apply s) (e.apply s') := by
  cases e with
  | answer r => exact h
  | loadKey key => exact h
  | setStream st r => exact ⟨rfl, rfl, rfl⟩

/-- Settles O53: the effect on one engine is the effect on every engine with the same registers and parameters. -/
theorem responseDependsOnRegistersOnly : Obligations.ResponseDependsOnRegistersOnly := by
  intro i s s' hconfig hkey hstream
  have v : SameView s s' := ⟨hconfig, hkey, hstream.readable⟩
  obtain ⟨e, -, hexec⟩ := exec_hasEffect i s
  exact ⟨e.apply s, e.apply s', e.response, hexec s (.refl s), hexec s' v, (e.sameView_apply v).key,
    e.sameStream_apply hstream, e.answered s, e.answered s'⟩

end Sys2Proof.Machine
end

section
/-!
SUPPORT. The decoder and the encoder undo each other (spec/30_encoding.md R38, R39, R49): what the decoder answers is said
once in terms of the format, and the ten commands are gone through once in each direction.
-/

namespace Sys2Proof

open Sys2Proof.Machine

/-! ## Fields and formats -/

/-- A field loses and adds no byte where enough bytes are given (R42). -/
theorem toList_fieldOf {n : Nat} {bytes : Bytes} (h : n ≤ bytes.length) :
    (fieldOf n bytes).toList = bytes.take n := by
  apply List.ext_getElem
  · simp [h]
  · intro j hj _
    have hjn : j < n := by simpa using hj
    have hlen : j < bytes.length := by omega
    simp [fieldOf, hlen]

theorem toList_fieldOf_of_length_eq {n : Nat} {bytes : Bytes} (h : bytes.length = n) :
    (fieldOf n bytes).toList = bytes := by
  rw [toList_fieldOf h.ge, List.take_of_length_le h.le]

/-- R39: the ten legal opcodes. -/
theorem opcode_cases {op : Byte} (h1 : 0x01 ≤ op.toNat) (h10 : op.toNat ≤ 0x0A) :
    op = 0x01 ∨ op = 0x02 ∨ op = 0x03 ∨ op = 0x04 ∨ op = 0x05 ∨ op = 0x06 ∨ op = 0x07 ∨ op = 0x08 ∨
      op = 0x09 ∨ op = 0x0A := by
  bv_omega

/-- R39, R41: an opcode that has a format is legal. -/
theorem legal_of_formatOf_eq_some {op : Byte} {f : Format} (hf : formatOf op = some f) :
    0x01 ≤ op.toNat ∧ op.toNat ≤ 0x0A := by
  unfold formatOf at hf
  split at hf
  case h_11 => cases hf
  all_goals omega

theorem exists_formatOf_eq_some {op : Byte} (h1 : 0x01 ≤ op.toNat) (h10 : op.toNat ≤ 0x0A) :
    ∃ f, formatOf op = some f := by
  obtain rfl | rfl | rfl | rfl | rfl | rfl | rfl | rfl | rfl | rfl := opcode_cases h1 h10 <;> exact ⟨_, rfl⟩

/-! ## What the decoder answers -/

/-- Decoding succeeds exactly when the length passes both checks of R42 and the fields are split off. -/
theorem decode_cons_eq_ok_iff {c : Config} {op : Byte} {operand : Bytes} {f : Format} {i : Instr}
    (hf : formatOf op = some f) :
    decode c (op :: operand) = .ok i ↔
      f.fits (operand.length + 1) = true ∧ c.operandFits operand.length = true ∧
        splitFields op operand = some i := by
  simp only [decode, hf]
  split
  next hlength =>
    obtain ⟨hfits, hlimit⟩ := (Bool.and_eq_true _ _).mp hlength
    cases splitFields op operand <;> simp [hfits, hlimit]
  next hlength =>
    simp only [reduceCtorEq, false_iff]
    exact fun ⟨hfits, hlimit, _⟩ => hlength ((Bool.and_eq_true _ _).mpr ⟨hfits, hlimit⟩)

/-- R42: the operand is within `MAX_OPERAND_BYTES` unless there is a limit below its length. -/
theorem operandFits_eq_false_iff (c : Config) (n : Nat) :
    c.operandFits n = false ↔ ∃ limit, c.maxOperandBytes = some limit ∧ limit < n := by
  cases hmax : c.maxOperandBytes <;> simp [Config.operandFits, hmax]

/-- R42: the length error is raised exactly when one of the two length checks fails. -/
theorem decode_cons_eq_length_iff {c : Config} {op : Byte} {operand : Bytes} {f : Format}
    (hf : formatOf op = some f) :
    decode c (op :: operand) = .error .length ↔
      f.fits (operand.length + 1) = false ∨ c.operandFits operand.length = false := by
  rw [← Bool.and_eq_false_iff]
  simp only [decode, hf]
  split
  next hlength => cases splitFields op operand <;> simp [hlength]
  next hlength => simpa using hlength

/-! ## Encoding, then decoding -/

/-- Every command's byte string has the shape that R37 and R38 give it. -/
theorem encodeShape (i : Instr) : Laws.EncodeShape.Statement i := by
  cases i with
  | setkey key => exact Laws.EncodeShape.setkey key
  | encblk block => exact Laws.EncodeShape.encblk block
  | derive pw => exact Laws.EncodeShape.derive pw
  | ctrinit nonce => exact Laws.EncodeShape.ctrinit nonce
  | ctrblk block => exact Laws.EncodeShape.ctrblk block
  | encmsg nonce pt => exact Laws.EncodeShape.encmsg nonce pt
  | decmsg text => exact Laws.EncodeShape.decmsg text
  | b64enc data => exact Laws.EncodeShape.b64enc data
  | b64dec text => exact Laws.EncodeShape.b64dec text
  | rdstat => exact Laws.EncodeShape.rdstat

theorem Instr.operand_length (i : Instr) : i.operand.length = i.operandLength := by
  obtain ⟨-, hlen, -⟩ := encodeShape i
  simpa [encode] using hlen

/-- The fields a command's operand is made of are read back from it (R38). -/
theorem splitFields_operand (i : Instr) : splitFields i.opcode i.operand = some i := by
  cases i with
  | setkey key => exact congrArg (fun k => some (Instr.setkey k)) (fieldOf_toList 32 key)
  | encblk block => exact congrArg (fun b => some (Instr.encblk b)) (fieldOf_toList 16 block)
  | derive pw => rfl
  | ctrinit nonce => exact congrArg (fun n => some (Instr.ctrinit n)) (fieldOf_toList 8 nonce)
  | ctrblk block => exact congrArg (fun b => some (Instr.ctrblk b)) (fieldOf_toList 16 block)
  | encmsg nonce pt =>
    have hdrop : (nonce.toList ++ pt).drop 8 = pt := by simp
    exact congrArg₂ (fun n p => some (Instr.encmsg n p)) (fieldOf_toList_append 8 nonce pt) hdrop
  | decmsg text => rfl
  | b64enc data => rfl
  | b64dec text => rfl
  | rdstat => rfl

theorem decode_encode {c : Config} {i : Instr} (hwf : i.wellFormed c = true) : decode c (encode i) = .ok i := by
  obtain ⟨-, -, f, hf, hfits⟩ := encodeShape i
  refine (decode_cons_eq_ok_iff hf).mpr ⟨hfits, ?_, splitFields_operand i⟩
  rw [Instr.operand_length]
  exact hwf

/-- Settles O1: the operand passes the length checks, and its fields are read back. -/
theorem decodeOfEncodeGivesTheCommand : Obligations.DecodeOfEncodeGivesTheCommand :=
  fun _ _ hwf => decode_encode hwf

/-- Settles O6: each byte string is the encoding of the command named. -/
theorem writtenOutCommandsDecode : Obligations.WrittenOutCommandsDecode :=
  ⟨decode_encode (i := .rdstat) rfl,
    decode_encode (i := .setkey (Vector.replicate 32 0xA5)) rfl,
    decode_encode (i := .encblk (Vector.replicate 16 0x3C)) rfl,
    decode_encode (i := .ctrinit #v[8, 7, 6, 5, 4, 3, 2, 1]) rfl,
    decode_encode (i := .derive [0x73, 0x65]) rfl,
    decode_encode (i := .encmsg #v[1, 0, 0, 0, 0, 0, 0, 0] [0x61]) rfl⟩

/-! ## Decoding, then encoding -/

/-- The fields split off an operand that fits the format make up the whole of it (R42). -/
theorem encode_of_splitFields {op : Byte} {operand : Bytes} {f : Format} {i : Instr} (hf : formatOf op = some f)
    (hfits : f.fits (operand.length + 1) = true) (hsplit : splitFields op operand = some i) :
    encode i = op :: operand := by
  obtain ⟨h1, h10⟩ := legal_of_formatOf_eq_some hf
  obtain rfl | rfl | rfl | rfl | rfl | rfl | rfl | rfl | rfl | rfl := opcode_cases h1 h10 <;>
    cases hf <;> cases hsplit <;> simp only [Format.fits, beq_iff_eq, decide_eq_true_eq] at hfits
  · exact congrArg (List.cons 0x01) (toList_fieldOf_of_length_eq (by omega))
  · exact congrArg (List.cons 0x02) (toList_fieldOf_of_length_eq (by omega))
  · rfl
  · exact congrArg (List.cons 0x04) (toList_fieldOf_of_length_eq (by omega))
  · exact congrArg (List.cons 0x05) (toList_fieldOf_of_length_eq (by omega))
  · have hfield : (fieldOf 8 operand).toList = operand.take 8 := toList_fieldOf (by omega)
    have hwhole : (fieldOf 8 operand).toList ++ operand.drop 8 = operand := by
      rw [hfield, List.take_append_drop]
    exact congrArg (List.cons 0x06) hwhole
  · rfl
  · rfl
  · rfl
  · have hnil : operand = [] := List.length_eq_zero_iff.mp (by omega)
    rw [hnil]
    rfl

theorem encode_of_decode {c : Config} {cmd : Bytes} {i : Instr} (h : decode c cmd = .ok i) :
    encode i = cmd ∧ i.wellFormed c = true := by
  cases cmd with
  | nil => cases h
  | cons op operand =>
    cases hf : formatOf op with
    | none => simp [decode, hf] at h
    | some f =>
      obtain ⟨hfits, hlimit, hsplit⟩ := (decode_cons_eq_ok_iff hf).mp h
      have hencode : encode i = op :: operand := encode_of_splitFields hf hfits hsplit
      have hoperand : i.operand = operand := (List.cons.inj hencode).2
      refine ⟨hencode, ?_⟩
      rw [Instr.wellFormed, ← Instr.operand_length, hoperand]
      exact hlimit

/-- Settles O2: the fields a decoded command is made of are the whole operand, which passed the length checks. -/
theorem encodeOfDecodeGivesTheBytes : Obligations.EncodeOfDecodeGivesTheBytes :=
  fun _ _ _ h => encode_of_decode h

/-! ## The nonce operand -/

theorem le64_getElem (n : U64) (j : Nat) (h : j < 8) : (le64 n)[j] = n.extractLsb' (8 * j) 8 := by
  simp [le64, BitVec.setWidth_ushiftRight_eq_extractLsb]

/-- The bytes of `LE64`, most significant first, are adjacent slices of the value (R8). -/
theorem unLE64_le64 (n : U64) : unLE64 (le64 n) = n := by
  simp only [unLE64, le64_getElem, Nat.reduceMul]
  repeat rw [BitVec.extractLsb'_append_extractLsb'_eq_extractLsb' (by rfl)]
  exact BitVec.extractLsb'_eq_self

/-- Settles O7: the bytes are slices of the value, and the commands decode because they are encodings. -/
theorem nonceOperandIsLittleEndian : Obligations.NonceOperandIsLittleEndian := by
  intro c n pt hmax
  have hwf (i : Instr) : i.wellFormed c = true := by simp [Instr.wellFormed, Config.operandFits, hmax]
  refine ⟨unLE64_le64 n, fun j h => ?_, decode_encode (hwf (.ctrinit (le64 n))),
    decode_encode (hwf (.encmsg (le64 n) pt))⟩
  rw [le64_getElem n j h, BitVec.extractLsb'_toNat, Nat.shiftRight_eq_div_pow]

end Sys2Proof
end

section
/-!
SUPPORT. What a step answers to a delivered command (spec/30_encoding.md R37, R42, R49; spec/60_exceptions.md R106).
-/

namespace Sys2Proof.Machine

/-! ## Delivered commands -/

theorem step_of_decode_ok {s : State} {cmd : Bytes} {rest : List HostEvent} {i : Instr}
    (hp : s.pending = .command cmd :: rest) (hd : decode s.config cmd = .ok i) :
    step s = exec i (takeEvent rest s) := by
  simp [step, nextWork_command s cmd rest hp, presented, hd]

theorem step_of_decode_error {s : State} {cmd : Bytes} {rest : List HostEvent} {e : DecodeError}
    (hp : s.pending = .command cmd :: rest) (hd : decode s.config cmd = .error e) :
    step s = raise (decodeErrorStatus e) (takeEvent rest s) := by
  simp [step, nextWork_command s cmd rest hp, presented, hd]

/-- Settles O8: the port hands the decoded command to `exec`. -/
theorem stepRunsTheDecodedCommand : Obligations.StepRunsTheDecodedCommand :=
  fun _ _ _ _ hp hd => step_of_decode_ok hp hd

/-! ## The length error -/

/-- R38, R42: the lengths of operands that do not fit the format of a legal opcode. -/
theorem fits_eq_false_iff {op : Byte} {f : Format} (hf : formatOf op = some f) (n : Nat) :
    f.fits (n + 1) = false ↔
      (op = 0x0A ∧ n ≠ 0) ∨ (op = 0x01 ∧ n ≠ 32) ∨ ((op = 0x02 ∨ op = 0x05) ∧ n ≠ 16) ∨
        (op = 0x04 ∧ n ≠ 8) ∨ (op = 0x06 ∧ n < 8) := by
  obtain ⟨h1, h10⟩ := legal_of_formatOf_eq_some hf
  obtain rfl | rfl | rfl | rfl | rfl | rfl | rfl | rfl | rfl | rfl := opcode_cases h1 h10 <;>
    cases hf <;> simp [Format.fits]

/-- Settles O4: each of the two length checks fails for the lengths named, before any look at the state; and what decodes
is encoded again as it was. -/
theorem misfittingLengthsRaiseELength : Obligations.MisfittingLengthsRaiseELength := by
  intro s op operand rest hp h1 h10
  obtain ⟨f, hf⟩ := exists_formatOf_eq_some h1 h10
  refine ⟨?_, fun hd => step_of_decode_error hp hd, fun i hd => (encode_of_decode hd).1⟩
  rw [decode_cons_eq_length_iff hf, fits_eq_false_iff hf, operandFits_eq_false_iff]
  simp only [or_assoc]

/-! ## One response to one command -/

@[simp] theorem Effect.apply_pending (e : Effect) (s : State) : (e.apply s).pending = s.pending := by
  cases e <;> rfl

/-- R106: bit 7 of the code marks the seven errors. -/
theorem statusIsError_iff (st : Status) : statusIsError st = true ↔ st ≠ .ok ∧ st ≠ .passthru := by
  cases st <;> decide

/-- Settles O10: a delivered command has one sound effect, which leaves the port as it is and answers once. -/
theorem oneCommandGivesOneResponse : Obligations.OneCommandGivesOneResponse := by
  refine ⟨fun s t cmd rest hp hstep => ?_, by decide, statusIsError_iff⟩
  obtain ⟨hidle, -⟩ | ⟨rest', hreset, -⟩ | ⟨cmd', rest', e, hcmd, hsound, hs⟩ := step_cases s
  · simp [hp] at hidle
  · simp [hp] at hreset
  · obtain ⟨-, rfl⟩ : cmd = cmd' ∧ rest = rest' := by simpa [hp] using hcmd
    obtain rfl : e.apply (takeEvent rest s) = t := by simpa [hs] using hstep
    exact ⟨e.apply_pending _, e.response, e.answered _, rfl,
      fun hok hpass => hsound.bare ((statusIsError_iff _).mpr ⟨hok, hpass⟩)⟩

/-! ## The length of a wire text -/

/-- R98: four characters for each group of three bytes begun. -/
theorem base64Enc_length (d : Bytes) : (base64Enc d).length = 4 * ((d.length + 2) / 3) := by
  induction d using base64Enc.induct with
  | case1 => rfl
  | case2 b0 => simp [base64Enc]
  | case3 b0 b1 => simp [base64Enc]
  | case4 b0 b1 b2 rest _ _ _ _ _ ih =>
    simp only [base64Enc, List.length_cons, ih]
    omega

theorem joinBlocks_length (blocks : List Block) : (joinBlocks blocks).length = 16 * blocks.length := by
  induction blocks with
  | nil => rfl
  | cons b bs ih =>
    have hcons : joinBlocks (b :: bs) = b.toList ++ joinBlocks bs := rfl
    rw [hcons, List.length_append, Vector.length_toList, ih, List.length_cons]
    omega

/-- R44, R90: a framed message is the nonce and the blocks of the message. -/
theorem encryptStream_length (W : Schedule) (nonce : Nonce) (pt : Bytes) :
    (encryptStream W nonce pt).1.length = 8 + 16 * blockCount pt.length := by
  simp [encryptStream, joinBlocks_length]

/-- Settles O40: the framed message has `8 + 16 n` bytes, and base64 makes four characters of each three begun. -/
theorem wireTextLength : Obligations.WireTextLength := by
  intro W nonce pt n hn
  have hlen : (base64Enc (encryptStream W nonce pt).1).length = 4 * ((8 + 16 * n + 2) / 3) := by
    rw [base64Enc_length, encryptStream_length, hn]
    rfl
  exact ⟨hlen, by omega, by omega⟩

/-! ## The pseudo-commands -/

/-- The two runs answer the same response. -/
def SameAnswer (s s' : State) (o o' : Result) : Prop :=
  ∃ (t t' : State) (r : Response), o = .next t ∧ o' = .next t' ∧ Answered s t r ∧ Answered s' t' r

theorem sameAnswer_raise (st : Status) (s s' : State) : SameAnswer s s' (raise st s) (raise st s') :=
  ⟨_, _, { status := st, result := [] }, rfl, rfl, rfl, rfl⟩

theorem sameAnswer_finish_putStream (st : Status) (result : Bytes) (stream : Stream) (s s' : State) :
    SameAnswer s s' (finish st result (putStream stream s)) (finish st result (putStream stream s')) :=
  ⟨_, _, { status := st, result := result }, rfl, rfl, rfl, rfl⟩

/-- `ENCMSG` reads the schedule only: the stream is started anew (R90, R91). -/
theorem execEncmsg_sameAnswer (nonce : Nonce) (pt : Bytes) {s s' : State} (hW : schedule? s' = schedule? s) :
    SameAnswer s s' (execEncmsg nonce pt s) (execEncmsg nonce pt s') := by
  unfold execEncmsg
  rw [hW]
  split
  · exact sameAnswer_raise .eLength s s'
  split
  · exact sameAnswer_raise .eNokey s s'
  · exact sameAnswer_finish_putStream .ok _ _ s s'

/-- `DECMSG` reads the parameters and the schedule only: the stream is started anew (R94). -/
theorem execDecmsg_sameAnswer (text : Bytes) {s s' : State} (hconfig : s'.config = s.config)
    (hW : schedule? s' = schedule? s) : SameAnswer s s' (execDecmsg text s) (execDecmsg text s') := by
  unfold execDecmsg
  rw [hW, hconfig]
  split
  · exact sameAnswer_raise .eLength s s'
  split
  · exact sameAnswer_raise .eNokey s s'
  split
  · exact sameAnswer_raise .eB64 s s'
  split
  · exact sameAnswer_raise .eHeader s s'
  split
  · exact sameAnswer_raise .eRagged s s'
  dsimp only
  split
  · exact sameAnswer_finish_putStream .ok _ _ s s'
  · exact sameAnswer_finish_putStream .passthru _ _ s s'

/-- The state `DERIVE` leaves (R85): the next command sees the password's schedule, whatever was there before. -/
def derived (pw : Bytes) (s : State) : State :=
  respond .ok [] (putSchedule (keyExpansion (deriveKey pw)) s)

@[simp] theorem derived_config (pw : Bytes) (s : State) : (derived pw s).config = s.config := rfl

@[simp] theorem derived_responses (pw : Bytes) (s : State) :
    (derived pw s).responses = s.responses ++ [{ status := .ok, result := [] }] := rfl

@[simp] theorem schedule?_derived (pw : Bytes) (s : State) :
    schedule? (derived pw s) = some (keyExpansion (deriveKey pw)) := rfl

theorem execAll_derive {pw : Bytes} {i : Instr} {s t : State} (h : exec i (derived pw s) = .next t) :
    execAll [.derive pw, i] s = .next t := by
  have hderive : exec (.derive pw) s = .next (derived pw s) := rfl
  simp only [execAll, hderive, h]

/-- A command that answers alike after `DERIVE` on two engines makes the pair of commands answer alike. -/
theorem execAll_derive_answersAlike {pw : Bytes} {i : Instr} {s s' : State}
    (h : SameAnswer (derived pw s) (derived pw s') (exec i (derived pw s)) (exec i (derived pw s'))) :
    ∃ (t t' : State) (rs : List Response),
      execAll [.derive pw, i] s = .next t ∧ execAll [.derive pw, i] s' = .next t' ∧
        t.responses = s.responses ++ rs ∧ t'.responses = s'.responses ++ rs := by
  obtain ⟨t, t', r, ht, ht', hr, hr'⟩ := h
  refine ⟨t, t', [{ status := .ok, result := [] }, r], execAll_derive ht, execAll_derive ht', ?_, ?_⟩
  · rw [hr, derived_responses, List.append_assoc, List.singleton_append]
  · rw [hr', derived_responses, List.append_assoc, List.singleton_append]

/-- Settles O55: `DERIVE` sets the schedule, and the command after it reads nothing but the schedule and the parameters. -/
theorem pseudoCommandsForgetTheState : Obligations.PseudoCommandsForgetTheState := by
  intro s s' is hconfig his
  have hW (pw : Bytes) : schedule? (derived pw s') = schedule? (derived pw s) := by simp only [schedule?_derived]
  obtain ⟨pt, pw, n, rfl⟩ | ⟨text, pw, rfl⟩ := his
  · exact execAll_derive_answersAlike (execEncmsg_sameAnswer (le64 n) pt (hW pw))
  · exact execAll_derive_answersAlike (execDecmsg_sameAnswer text (by simpa using hconfig) (hW pw))

end Sys2Proof.Machine
end

section
/-!
SUPPORT. The laws of the field product and the formula behind the substitution table (spec/40_field_primitives.md).
-/

namespace Sys2Proof.Machine

/-! ## Doubling -/

theorem xtime_zero : xtime 0x00 = 0x00 := rfl

/-- R54: both the shift and the reduction are linear in the bits of the byte. -/
theorem xtime_xor (a b : Byte) : xtime (a ^^^ b) = xtime a ^^^ xtime b := by
  have hreduction (x y : Bool) : (if (x ^^ y) then reduce else 0x00) =
      (if x then reduce else 0x00) ^^^ (if y then reduce else 0x00) := by
    cases x <;> cases y <;> rfl
  unfold xtime
  rw [BitVec.shiftLeft_xor_distrib, BitVec.getLsbD_xor, hreduction]
  ac_rfl

theorem iterate_xtime_xor (k : Nat) (a b : Byte) : xtime^[k] (a ^^^ b) = xtime^[k] a ^^^ xtime^[k] b :=
  Function.Semiconj₂.iterate (f := xtime) xtime_xor k a b

/-! ## The product as a sum of doublings -/

/-- What the loop of R55 adds at bit `k` of the multiplier: the byte doubled `k` times, where the bit is set. -/
def partialProduct (a b : Byte) (k : Nat) : Byte :=
  if b.getLsbD k then xtime^[k] a else 0x00

theorem gmul_eq_partialProducts (a b : Byte) :
    gmul a b =
      partialProduct a b 0 ^^^ partialProduct a b 1 ^^^ partialProduct a b 2 ^^^ partialProduct a b 3 ^^^
        partialProduct a b 4 ^^^ partialProduct a b 5 ^^^ partialProduct a b 6 ^^^ partialProduct a b 7 := by
  have hturn (c : Bool) (p q : Byte) : (if c then p ^^^ q else p) = p ^^^ (if c then q else 0x00) := by
    cases c <;> simp
  simp [gmul, gmulTurn, partialProduct, hturn]

theorem partialProduct_xor (a b c : Byte) (k : Nat) :
    partialProduct (a ^^^ b) c k = partialProduct a c k ^^^ partialProduct b c k := by
  unfold partialProduct
  cases c.getLsbD k
  · simp
  · exact iterate_xtime_xor k a b

theorem gmul_xor_left (a b c : Byte) : gmul (a ^^^ b) c = gmul a c ^^^ gmul b c := by
  simp only [gmul_eq_partialProducts, partialProduct_xor]
  ac_rfl

theorem zero_gmul (b : Byte) : gmul 0x00 b = 0x00 := by
  simpa using gmul_xor_left 0x00 0x00 b

theorem one_gmul : ∀ b : Byte, gmul 0x01 b = b := by decide +kernel

/-! ## Commutativity -/

theorem gmul_xtime_left (a b : Byte) : gmul (xtime a) b = xtime (gmul a b) := by
  have hpartial (k : Nat) : partialProduct (xtime a) b k = xtime (partialProduct a b k) := by
    unfold partialProduct
    cases b.getLsbD k
    · exact xtime_zero.symm
    · exact Function.Commute.iterate_self xtime k a
  simp only [gmul_eq_partialProducts, hpartial, xtime_xor]

theorem gmul_iterate_xtime_left (k : Nat) (a b : Byte) : gmul (xtime^[k] a) b = xtime^[k] (gmul a b) :=
  Function.Semiconj.iterate_right (f := (gmul · b)) (fun a => gmul_xtime_left a b) k a

theorem gmul_partialProduct_left (c a b : Byte) (k : Nat) :
    gmul (partialProduct c a k) b = partialProduct (gmul c b) a k := by
  unfold partialProduct
  cases a.getLsbD k
  · exact zero_gmul b
  · exact gmul_iterate_xtime_left k c b

/-- The product by `b` passes through the sum that makes up the product by `a`. -/
theorem gmul_right_comm (c a b : Byte) : gmul (gmul c a) b = gmul (gmul c b) a := by
  rw [gmul_eq_partialProducts c a, gmul_eq_partialProducts (gmul c b) a]
  simp only [gmul_xor_left, gmul_partialProduct_left]

theorem gmul_comm (a b : Byte) : gmul a b = gmul b a := by
  simpa only [one_gmul] using gmul_right_comm 0x01 a b

/-! ## The products of `MixColumns` -/

theorem gmul_one (a : Byte) : gmul a 0x01 = a := by
  rw [gmul_comm, one_gmul]

theorem gmul_two (a : Byte) : gmul a 0x02 = xtime a := by
  rw [gmul_comm, show (0x02 : Byte) = xtime 0x01 from rfl, gmul_xtime_left, one_gmul]

theorem gmul_three (a : Byte) : gmul a 0x03 = xtime a ^^^ a := by
  rw [gmul_comm, show (0x03 : Byte) = 0x02 ^^^ 0x01 from rfl, gmul_xor_left, gmul_comm, gmul_two, one_gmul]

/-- Settles O50: the product is a sum of doublings, and doubling is linear. -/
theorem fieldProductLaws : Obligations.FieldProductLaws :=
  fun a b c => ⟨gmul_comm a b, gmul_xor_left a b c, gmul_one a, gmul_two a, gmul_three a, xtime_xor a b⟩

/-! ## The formula of the substitution table -/

/-- Undoes the affine map of R57. -/
def sboxAffineInv (b : Byte) : Byte :=
  rotl8 b 1 ^^^ rotl8 b 3 ^^^ rotl8 b 6 ^^^ 0x05

theorem sboxAffine_sboxAffineInv : ∀ b : Byte, sboxAffine (sboxAffineInv b) = b := by decide +kernel

/-- `inv` of R57, read out of the table. -/
def fieldInv (a : Byte) : Byte :=
  sboxAffineInv (sbox a)

theorem fieldInv_zero : fieldInv 0x00 = 0x00 := by decide

/-- R57: the check of the table against the formula, byte by byte. -/
theorem gmul_fieldInv : ∀ a : Byte, a ≠ 0x00 → gmul a (fieldInv a) = 0x01 := by decide +kernel

theorem sbox_eq_sboxAffine_fieldInv (a : Byte) : sbox a = sboxAffine (fieldInv a) :=
  (sboxAffine_sboxAffineInv (sbox a)).symm

/-- Settles O51: the affine map undone on a table entry gives `0x00` at `0x00`, and the field inverse elsewhere. -/
theorem sboxFollowsTheFormula : Obligations.SboxFollowsTheFormula :=
  ⟨fieldInv_zero ▸ sbox_eq_sboxAffine_fieldInv 0x00,
    fun a ha => ⟨fieldInv a, gmul_fieldInv a ha, sbox_eq_sboxAffine_fieldInv a⟩⟩

/-! ## The substitution table as a permutation -/

/-- Two bytes with a common inverse are equal. -/
theorem eq_of_gmul_eq_one {a b c : Byte} (ha : gmul a c = 0x01) (hb : gmul b c = 0x01) : a = b :=
  calc a = gmul (gmul b c) a := by rw [hb, one_gmul]
    _ = gmul (gmul a b) c := by rw [gmul_right_comm, gmul_comm b a]
    _ = gmul (gmul a c) b := gmul_right_comm a b c
    _ = b := by rw [ha, one_gmul]

theorem fieldInv_ne_zero {a : Byte} (ha : a ≠ 0x00) : fieldInv a ≠ 0x00 := by
  intro hinv
  have hone : gmul a 0x00 = 0x01 := hinv ▸ gmul_fieldInv a ha
  rw [gmul_comm, zero_gmul] at hone
  exact absurd hone (by decide)

theorem fieldInv_injective : Function.Injective fieldInv := by
  intro a b hab
  obtain rfl | ha := eq_or_ne a 0x00 <;> obtain rfl | hb := eq_or_ne b 0x00
  · rfl
  · exact absurd (hab.symm.trans fieldInv_zero) (fieldInv_ne_zero hb)
  · exact absurd (hab.trans fieldInv_zero) (fieldInv_ne_zero ha)
  · exact eq_of_gmul_eq_one (hab ▸ gmul_fieldInv a ha) (gmul_fieldInv b hb)

/-- Equal table entries come of equal field inverses. -/
theorem sbox_injective : Function.Injective sbox :=
  fun _ _ h => fieldInv_injective (congrArg sboxAffineInv h)

theorem sbox_ne_self : ∀ a : Byte, sbox a ≠ a := by decide +kernel

/-- Settles O52: an injective map of the bytes is a bijection, and `0x52` is one preimage of `0x00`, so it is the only one. -/
theorem sboxIsPermutationWithoutFixedPoint : Obligations.SboxIsPermutationWithoutFixedPoint :=
  have hzero : sbox 0x52 = 0x00 := rfl
  ⟨Finite.injective_iff_bijective.mp sbox_injective, sbox_ne_self,
    fun a => by rw [← hzero, sbox_injective.eq_iff]⟩

end Sys2Proof.Machine
end

section
/-!
SUPPORT. The recurrence of the key schedule, and what the commands that load a schedule do (spec/41_key_schedule.md).
-/

namespace Sys2Proof.Machine

/-! ## The recurrence -/

/-- R65: a word past the key's is made of two earlier words of the same schedule, and later turns change none of them. -/
theorem expandWords_getElem_of_ge (k : Key) {n : Nat} (hn : n ≤ 52) {i : Nat} (h8 : 8 ≤ i) (hi : i < 8 + n) :
    (expandWords k n hn)[i] =
      wordXor (expandWords k n hn)[i - 8] (scheduleTransform i (by omega) (expandWords k n hn)[i - 1]) := by
  induction n with
  | zero => omega
  | succ n ih =>
    rw [expandWords, Vector.getElem_push_lt (i := i - 8) (by omega), Vector.getElem_push_lt (i := i - 1) (by omega)]
    obtain rfl | hlt : i = 8 + n ∨ i < 8 + n := by omega
    · have hprev : 8 + n - 1 = n + 7 := by omega
      simp only [Vector.getElem_push_eq, Nat.add_sub_cancel_left, hprev]
    · rw [Vector.getElem_push_lt hlt]
      exact ih _ hlt

theorem keyExpansion_getElem_of_ge (k : Key) {i : Nat} (h : 8 ≤ i ∧ i ≤ 59) :
    (keyExpansion k)[i] =
      wordXor (keyExpansion k)[i - 8] (scheduleTransform i h (keyExpansion k)[i - 1]) :=
  expandWords_getElem_of_ge k (by omega) (by omega) (by omega)

theorem rcTable_eq_iterate_xtime : ∀ i : Fin 7, rcTable[i] = xtime^[i] 0x01 := by decide

/-- R58: the round constants are doublings of `0x01`. -/
theorem rc_eq_iterate_xtime {j : Nat} (h : 1 ≤ j ∧ j ≤ 7) : rc j h = xtime^[j - 1] 0x01 :=
  rcTable_eq_iterate_xtime ⟨j - 1, by omega⟩

/-- Settles O49: the first words are the key's, and the recurrence holds with the table's constants, which are doublings. -/
theorem keyExpansionRecurrence : Obligations.KeyExpansionRecurrence := by
  intro k
  refine ⟨keyExpansion_getElem_of_lt k, fun i hi => ?_⟩
  rw [keyExpansion_getElem_of_ge k (by omega)]
  simp only [scheduleTransform, rcon, rc_eq_iterate_xtime]

/-! ## SETKEY -/

/-- R42: an operand of opcode `0x01` that is not 32 bytes long is a length error, under any parameters. -/
theorem decode_setkey_eq_length (c : Config) {operand : Bytes} (h : operand.length ≠ 32) :
    decode c (0x01 :: operand) = .error .length := by
  have hfits : Format.k.fits (operand.length + 1) = false := by simp [Format.fits, h]
  exact (decode_cons_eq_length_iff rfl).mpr (.inl hfits)

/-- Settles O20: `SETKEY` loads the schedule in every state, and a misfitting length is rejected by the decoder. -/
theorem setkeyLoadsTheExpandedKey : Obligations.SetkeyLoadsTheExpandedKey :=
  ⟨fun _ _ => rfl, fun s _ _ hp hlen => step_of_decode_error hp (decode_setkey_eq_length s.config hlen)⟩

/-! ## The frame of SETKEY and DERIVE -/

/-- R11: to load a schedule and answer is to leave the stream registers and the port as they are. -/
theorem sameStream_samePort_of_finish_putSchedule {st : Status} {result : Bytes} {W : Schedule} {s t : State}
    (h : finish st result (putSchedule W s) = .next t) : SameStream s t ∧ SamePort s t := by
  obtain rfl := (finish_eq_next _ _ _ _).mp h
  exact ⟨⟨rfl, rfl, rfl⟩, rfl, rfl⟩

/-- Settles O17: both commands load a schedule and answer, and do nothing else. -/
theorem frameOfKeyCommands : Obligations.FrameOfKeyCommands :=
  fun _ _ _ _ h => h.elim sameStream_samePort_of_finish_putSchedule sameStream_samePort_of_finish_putSchedule

end Sys2Proof.Machine
end

section
/-!
SUPPORT. The block cipher (spec/42_block_cipher.md): the round steps by block position, the column mixing as a matrix, the
rounds in order, and why every step can be undone; then ENCBLK and the commands that write nothing.
-/

namespace Sys2Proof.Machine

/-! ## Column mixing -/

/-- The product of a byte with the matrix entry that stands `k` columns right of the diagonal, by double-and-XOR (R75). -/
def mixProduct (x : Byte) : Fin 4 → Byte
  | 0 => xtime x
  | 1 => xtime x ^^^ x
  | 2 => x
  | 3 => x

theorem gmul_mixMatrix (x : Byte) (r c : Fin 4) : gmul x (mixMatrix r c) = mixProduct x (c - r) := by
  unfold mixMatrix
  match c - r with
  | 0 => exact gmul_two x
  | 1 => exact gmul_three x
  | 2 => exact gmul_one x
  | 3 => exact gmul_one x

/-- R75: the body of `MixColumn` is row by row the product with the matrix. -/
theorem wordGet_mixColumn (a : Word) (r : Fin 4) :
    wordGet (mixColumn a) r =
      gmul (wordGet a 0) (mixMatrix r 0) ^^^ gmul (wordGet a 1) (mixMatrix r 1) ^^^
        gmul (wordGet a 2) (mixMatrix r 2) ^^^ gmul (wordGet a 3) (mixMatrix r 3) := by
  simp only [gmul_mixMatrix]
  fin_cases r <;> rfl

/-- The product is linear in each byte of the column. -/
theorem mixColumn_wordXor (a b : Word) : mixColumn (wordXor a b) = wordXor (mixColumn a) (mixColumn b) := by
  refine word_ext_get fun r => ?_
  simp only [wordGet_mixColumn, wordGet_wordXor, gmul_xor_left]
  ac_rfl

/-- Sorts the terms of an XOR for `simp`, together with associativity and commutativity. -/
theorem xor_left_comm (x y z : Byte) : x ^^^ (y ^^^ z) = y ^^^ (x ^^^ z) := by
  ac_rfl

/-- R75: the entries of each row of the matrix XOR to 1. -/
theorem mixColumn_of_equal (x : Byte) : mixColumn ⟨x, x, x, x⟩ = ⟨x, x, x, x⟩ := by
  simp [mixColumn, BitVec.xor_comm]

/-- One byte of the mixed column, from the column's bytes in order from that byte's own row on. -/
def mixByte (x y z w : Byte) : Byte :=
  xtime x ^^^ (xtime y ^^^ y) ^^^ z ^^^ w

/-- R75: each row of the matrix is the row before it, moved right by one place. -/
theorem mixColumn_eq_mixBytes (a : Word) :
    mixColumn a =
      ⟨mixByte a.b0 a.b1 a.b2 a.b3, mixByte a.b1 a.b2 a.b3 a.b0, mixByte a.b2 a.b3 a.b0 a.b1,
        mixByte a.b3 a.b0 a.b1 a.b2⟩ := by
  unfold mixColumn mixByte
  congr 1 <;> ac_rfl

/-- The square of the matrix has 5 on its diagonal and 4 two places from it. -/
theorem mixByte_mixBytes (x y z w : Byte) :
    mixByte (mixByte x y z w) (mixByte y z w x) (mixByte z w x y) (mixByte w x y z) =
      x ^^^ xtime (xtime (x ^^^ z)) := by
  simp [mixByte, xtime_xor, BitVec.xor_assoc, BitVec.xor_comm, xor_left_comm]

/-- Mixing twice changes each byte by its difference from the byte opposite, doubled twice. -/
theorem mixColumn_mixColumn (a : Word) :
    mixColumn (mixColumn a) =
      ⟨a.b0 ^^^ xtime (xtime (a.b0 ^^^ a.b2)), a.b1 ^^^ xtime (xtime (a.b1 ^^^ a.b3)),
        a.b2 ^^^ xtime (xtime (a.b2 ^^^ a.b0)), a.b3 ^^^ xtime (xtime (a.b3 ^^^ a.b1))⟩ := by
  simp only [mixColumn_eq_mixBytes, mixByte_mixBytes]

/-- Mixing twice leaves the differences of opposite bytes, so doing so again undoes it. -/
theorem mixColumn_mixColumn_involutive : Function.Involutive (mixColumn ∘ mixColumn) := by
  intro a
  simp [mixColumn_mixColumn, xtime_xor, BitVec.xor_assoc, BitVec.xor_comm]

theorem mixColumn_bijective : Function.Bijective mixColumn :=
  ⟨mixColumn_mixColumn_involutive.injective.of_comp, mixColumn_mixColumn_involutive.surjective.of_comp⟩

/-- Settles O48: the matrix product gives the linearity, and the fourth power of the matrix is the identity. -/
theorem mixColumnIsTheMatrixProduct : Obligations.MixColumnIsTheMatrixProduct :=
  ⟨wordGet_mixColumn, mixColumn_wordXor, mixColumn_of_equal, mixColumn_bijective⟩

/-! ## The round steps by block position -/

/-- R77: position `r + 4 c` of the stored block is byte `r` of column `c`. -/
theorem storeState_getElem_add (S : StateMatrix) {r c : Nat} (hr : r < 4) (hc : c < 4) :
    (storeState S)[r + 4 * c]'(by omega) = matGet S ⟨r, hr⟩ ⟨c, hc⟩ := by
  have hrow : (r + 4 * c) % 4 = r := by omega
  have hcol : (r + 4 * c) / 4 = c := by omega
  simp [storeState_getElem, hrow, hcol]

/-- R71, R77: what is loaded is stored again. -/
theorem storeState_loadState (b : Block) : storeState (loadState b) = b := by
  ext j hj
  have hpos : j % 4 + 4 * (j / 4) = j := Nat.mod_add_div j 4
  simp [storeState_getElem, hpos]

/-- R71: a column of the loaded matrix is four bytes of the block in a row. -/
theorem matColumn_loadState (b : Block) (c : Fin 4) :
    matColumn (loadState b) c =
      ⟨b[4 * c.val], b[4 * c.val + 1], b[4 * c.val + 2], b[4 * c.val + 3]⟩ := by
  fin_cases c <;> rfl

/-- Settles O47: each step is known byte by byte on the matrix, and position `r + 4 c` is row `r` of column `c`. -/
theorem roundStepsByBlockPosition : Obligations.RoundStepsByBlockPosition := by
  intro b W rnd r c hr hc
  refine ⟨storeState_loadState b, ?_, ?_, ?_, ?_⟩ <;> rw [storeState_getElem_add _ hr hc]
  · rw [matGet_addRoundKey, matGet_loadState, roundKeyWord]
  · rw [matGet_subBytes, matGet_loadState]
  · rw [matGet_shiftRows, matGet_loadState]
    simp only [Fin.val_add]
  · rw [matGet_mixColumns, matColumn_loadState]

/-! ## The rounds in order -/

/-- The state of R78 after the round `r`. -/
def roundState (b : Block) (W : Schedule) : Nat → StateMatrix
  | 0 => addRoundKey (loadState b) W 0
  | r + 1 =>
    if h : r < 13 then middleRound W (roundState b W r) ⟨r + 1, by omega⟩ else finalRound W (roundState b W r)

/-- The fold over the rounds 1 to 13 goes through these states. -/
theorem roundState_thirteen (b : Block) (W : Schedule) :
    roundState b W 13 = middleRounds.foldl (middleRound W) (addRoundKey (loadState b) W 0) := by
  simp [roundState, middleRounds]

/-- Settles O46: the 15 states are those after the rounds. -/
theorem cipherRoundStructure : Obligations.CipherRoundStructure := by
  intro b W
  refine ⟨roundState b W, rfl, fun r hr => ?_, rfl, ?_⟩
  · obtain ⟨k, rfl⟩ : ∃ k, r = k + 1 := ⟨r - 1, by omega⟩
    exact dif_pos (by omega)
  · rw [cipher, ← roundState_thirteen]
    rfl

/-! ## The cipher as a bijection -/

theorem loadState_injective : Function.Injective loadState :=
  Function.LeftInverse.injective storeState_loadState

/-- R77: the stored block holds every byte of the matrix. -/
theorem storeState_injective : Function.Injective storeState := by
  intro S T h
  refine mat_ext_get fun r c => ?_
  rw [← storeState_getElem_add S r.isLt c.isLt, ← storeState_getElem_add T r.isLt c.isLt]
  simp only [h]

theorem addRoundKey_injective (W : Schedule) (rnd : Fin 15) : Function.Injective (addRoundKey · W rnd) := by
  intro S T h
  refine mat_ext_get fun r c => ?_
  simpa using congrArg (matGet · r c) h

theorem subBytes_injective : Function.Injective subBytes := by
  intro S T h
  refine mat_ext_get fun r c => sbox_injective ?_
  simpa using congrArg (matGet · r c) h

/-- R74: the byte of column `c` stands in column `c - r` after the shift. -/
theorem shiftRows_injective : Function.Injective shiftRows := by
  intro S T h
  refine mat_ext_get fun r c => ?_
  simpa using congrArg (matGet · r (c - r)) h

theorem mixColumns_injective : Function.Injective mixColumns := by
  intro S T h
  refine mat_ext_get fun r c => congrArg (wordGet · r) (mixColumn_bijective.injective ?_)
  exact word_ext_get fun k => by simpa using congrArg (matGet · k c) h

theorem middleRound_injective (W : Schedule) (rnd : Fin 15) : Function.Injective (middleRound W · rnd) :=
  (addRoundKey_injective W rnd).comp (mixColumns_injective.comp (shiftRows_injective.comp subBytes_injective))

theorem finalRound_injective (W : Schedule) : Function.Injective (finalRound W) :=
  (addRoundKey_injective W 14).comp (shiftRows_injective.comp subBytes_injective)

theorem foldl_middleRound_injective (W : Schedule) (rounds : List (Fin 15)) :
    Function.Injective fun S => rounds.foldl (middleRound W) S := by
  induction rounds with
  | nil => exact Function.injective_id
  | cons rnd rounds ih => exact ih.comp (middleRound_injective W rnd)

/-- R79: each round can be undone, so two blocks with the same ciphertext are equal. -/
theorem cipher_injective (W : Schedule) : Function.Injective fun b => cipher b W := by
  intro b c h
  simp only [cipher] at h
  have hrounds := finalRound_injective W (storeState_injective h)
  have hround0 := foldl_middleRound_injective W middleRounds hrounds
  exact loadState_injective (addRoundKey_injective W 0 hround0)

theorem finite_block : Finite Block :=
  Finite.of_injective (fun (b : Block) (j : Fin 16) => b[j]) fun _ _ h =>
    Vector.ext fun j hj => congrFun h ⟨j, hj⟩

/-- Settles O45: an injective map of the finitely many blocks is a bijection. -/
theorem cipherIsBijection : Obligations.CipherIsBijection :=
  have := finite_block
  fun W => Finite.injective_iff_bijective.mp (cipher_injective W)

/-! ## ENCBLK -/

/-- R42: an operand of opcode `0x02` that is not 16 bytes long is a length error, under any parameters. -/
theorem decode_encblk_eq_length (c : Config) {operand : Bytes} (h : operand.length ≠ 16) :
    decode c (0x02 :: operand) = .error .length := by
  have hfits : Format.b.fits (operand.length + 1) = false := by simp [Format.fits, h]
  exact (decode_cons_eq_length_iff rfl).mpr (.inl hfits)

theorem execEncblk_of_schedule {s : State} {W : Schedule} (h : schedule? s = some W) (block : Block) :
    execEncblk block s = finish .ok (cipher block W).toList s := by
  simp [execEncblk, h]

theorem execEncblk_of_no_schedule {s : State} (h : schedule? s = none) (block : Block) :
    execEncblk block s = raise .eNokey s := by
  simp [execEncblk, h]

/-- Settles O21: the schedule decides between the two answers, and a misfitting length is rejected by the decoder. -/
theorem encblkAnswersTheCipherBlock : Obligations.EncblkAnswersTheCipherBlock := by
  refine ⟨fun s W block hwv hw => ?_, fun s block hwv => ?_, fun s operand rest hp hlen => ?_⟩
  · exact execEncblk_of_schedule ((schedule?_eq_some s W).mpr ⟨hwv, hw⟩) block
  · exact execEncblk_of_no_schedule (schedule?_of_wv_false s hwv) block
  · exact step_of_decode_error hp (decode_encblk_eq_length s.config hlen)

/-! ## The frame of the commands that write nothing -/

theorem frame_respond (st : Status) (result : Bytes) (s : State) :
    SameKey s (respond st result s) ∧ SameStream s (respond st result s) ∧ SamePort s (respond st result s) :=
  ⟨⟨rfl, rfl⟩, ⟨rfl, rfl, rfl⟩, rfl, rfl⟩

/-- Settles O18: every answer of these commands is a response and nothing else. -/
theorem frameOfCommandsThatWriteNothing : Obligations.FrameOfCommandsThatWriteNothing := by
  intro s t block data h
  rcases h with h | h | h | h
  · obtain ⟨-, rfl⟩ | ⟨W, -, rfl⟩ := execEncblk_cases h <;> exact frame_respond ..
  · obtain rfl := (finish_eq_next _ _ _ _).mp h
    exact frame_respond ..
  · obtain ⟨-, rfl⟩ | ⟨d, -, rfl⟩ := execB64dec_cases h <;> exact frame_respond ..
  · obtain rfl := (finish_eq_next _ _ _ _).mp h
    exact frame_respond ..

end Sys2Proof.Machine
end

section
/-!
SUPPORT. The counter block and the commands on the key and the stream: DERIVE, CTRINIT and CTRBLK
(spec/43_ctr_wrapper.md R83 to R89).
-/

namespace Sys2Proof.Machine

/-! ## The counter block -/

theorem be64_getElem (i : U64) (j : Nat) (h : j < 8) : (be64 i)[j] = i.extractLsb' (8 * (7 - j)) 8 := by
  simp [be64, BitVec.setWidth_ushiftRight_eq_extractLsb]

/-- R8: the two byte orders are each other's reversal. -/
theorem le64_getElem_eq_be64 (i : U64) (j : Nat) (h : j < 8) : (le64 i)[j] = (be64 i)[7 - j] := by
  have hj : 7 - (7 - j) = j := by omega
  rw [le64_getElem, be64_getElem, hj]

theorem be64_injective : Function.Injective be64 := by
  intro i i' h
  have hle : le64 i = le64 i' := by
    ext j hj
    rw [le64_getElem_eq_be64, le64_getElem_eq_be64, h]
  rw [← unLE64_le64 i, hle, unLE64_le64]

theorem counterBlock_getElem_nonce (N : Nonce) (i : U64) (j : Nat) (h : j < 8) : (counterBlock N i)[j] = N[j] := by
  simp only [counterBlock, Vector.getElem_append_left h]

theorem counterBlock_getElem_index (N : Nonce) (i : U64) (j : Nat) (h : j < 8) :
    (counterBlock N i)[j + 8] = i.extractLsb' (8 * (7 - j)) 8 := by
  simp only [counterBlock, Vector.getElem_append_right (Nat.add_lt_add_right h 8) (Nat.le_add_left 8 j),
    Nat.add_sub_cancel, be64_getElem]

/-- Settles O39: the block is two fields side by side, and each field holds all bits of its value. -/
theorem counterBlockLayout : Obligations.CounterBlockLayout := by
  refine ⟨fun N i j h => ⟨counterBlock_getElem_nonce N i j h, ?_⟩, fun n i j h => ?_, fun N N' i i' h => ?_⟩
  · rw [counterBlock_getElem_index N i j h, BitVec.extractLsb'_toNat, Nat.shiftRight_eq_div_pow]
  · rw [counterBlock_getElem_nonce _ _ _ h, le64_getElem, BitVec.extractLsb'_toNat, Nat.shiftRight_eq_div_pow]
  · obtain ⟨hN, hi⟩ := Vector.append_inj h
    exact ⟨hN, be64_injective hi⟩

/-! ## Commands of a wrong length -/

/-- R42, R108: a delivered command that fails one of the two length checks is answered with `E_LENGTH`. -/
theorem step_eLength_of_misfit {s : State} {op : Byte} {operand : Bytes} {rest : List HostEvent} {f : Format}
    (hp : s.pending = .command (op :: operand) :: rest) (hf : formatOf op = some f)
    (h : f.fits (operand.length + 1) = false ∨ s.config.operandFits operand.length = false) :
    step s = .next (respond .eLength [] (takeEvent rest s)) :=
  step_of_decode_error hp ((decode_cons_eq_length_iff hf).mpr h)

/-! ## DERIVE -/

theorem padKey_getElem (pw : Bytes) (j : Nat) (h : j < 32) :
    (padKey pw)[j] = if _ : j < pw.length then pw[j] else 0x00 := by
  rw [padKey, fieldOf_getElem, List.getD_eq_getElem?_getD]
  split <;> simp [*]

theorem firstBlock_getElem (k : Key) (j : Nat) (h : j < 16) : (firstBlock k)[j] = k[j] := by
  simp [firstBlock]

theorem doubleBlock_getElem (T : Block) (j : Nat) (h : j < 16) :
    (doubleBlock T)[j] = T[j] ∧ (doubleBlock T)[j + 16] = T[j] := by
  constructor
  · simp only [doubleBlock, Vector.getElem_append_left h]
  · simp only [doubleBlock, Vector.getElem_append_right (Nat.add_lt_add_right h 16) (Nat.le_add_left 16 j),
      Nat.add_sub_cancel]

/-- Settles O22: the buffer, the block and the working key are read byte by byte, and only `MAX_OPERAND_BYTES` bounds the
password. -/
theorem deriveLoadsTheDoubledCiphertext : Obligations.DeriveLoadsTheDoubledCiphertext := by
  refine ⟨fun s pw => ⟨padKey pw, deriveKey pw, firstBlock (padKey pw), _, padKey_getElem pw,
    firstBlock_getElem (padKey pw), rfl, doubleBlock_getElem _, rfl⟩, fun s pw rest limit hp hmax hlen => ?_⟩
  exact step_eLength_of_misfit hp rfl (.inr ((operandFits_eq_false_iff _ _).mpr ⟨limit, hmax, hlen⟩))

/-! ## CTRINIT -/

/-- Settles O23: the three stream registers are written in every state, and a misfitting length is rejected by the
decoder. -/
theorem ctrinitStartsTheStream : Obligations.CtrinitStartsTheStream :=
  ⟨fun _ _ => rfl, fun _ _ _ hp hlen => step_eLength_of_misfit hp rfl (.inl (by simp [Format.fits, hlen]))⟩

/-! ## CTRBLK -/

theorem execCtrblk_of_stream {s : State} {W : Schedule} {st : Stream} (hW : schedule? s = some W)
    (hst : stream? s = some st) (block : Block) :
    execCtrblk block s =
      finish .ok (blockXor block (keystream W st.nonce st.ctr)).toList (putStream (advance st) s) := by
  simp [execCtrblk, hW, hst, blockStep_eq]

theorem execCtrblk_of_no_schedule {s : State} (hW : schedule? s = none) (block : Block) :
    execCtrblk block s = raise .eNokey s := by
  simp [execCtrblk, hW]

theorem execCtrblk_of_no_stream {s : State} {W : Schedule} (hW : schedule? s = some W) (hst : stream? s = none)
    (block : Block) : execCtrblk block s = raise .eNoctr s := by
  simp [execCtrblk, hW, hst]

/-- R89: an advance writes the index and `CV` only. -/
theorem putStream_advance {s : State} {st : Stream} (hst : stream? s = some st) :
    putStream (advance st) s = { s with ctrBits := some (st.ctr + 1), cv := decide (st.ctr + 1 ≠ 0) } := by
  obtain ⟨hcv, hnonce, -⟩ := (stream?_eq_some s st).mp hst
  obtain ⟨-, hbits⟩ := (nonce_eq_some s st.nonce).mp hnonce
  simp [putStream, advance, nextIndex, cvAfterAdvance, hcv, hbits]

/-- R88, R89: what `CTRBLK` does on a live stream. -/
theorem execCtrblk_of_live {s : State} {W : Schedule} {N : Nonce} {i : U64} (hwv : s.wv = true) (hw : s.w = some W)
    (hN : s.nonce = some N) (hi : s.ctr = some i) (block : Block) :
    execCtrblk block s =
      .next (respond .ok (blockXor block (keystream W N i)).toList
        { s with ctrBits := some (i + 1), cv := decide (i + 1 ≠ 0) }) := by
  have hst : stream? s = some { nonce := N, ctr := i, cv := true } := (stream?_eq_some s _).mpr ⟨rfl, hN, hi⟩
  rw [execCtrblk_of_stream ((schedule?_eq_some s W).mpr ⟨hwv, hw⟩) hst, putStream_advance hst]
  rfl

/-- R110: with a key and no live stream `CTRBLK` raises `E_NOCTR`. -/
theorem execCtrblk_of_cv_false {s : State} {W : Schedule} (hwv : s.wv = true) (hw : s.w = some W) (hcv : s.cv = false)
    (block : Block) : execCtrblk block s = .next (respond .eNoctr [] s) :=
  execCtrblk_of_no_stream ((schedule?_eq_some s W).mpr ⟨hwv, hw⟩) (stream?_of_cv_false s hcv) block

/-- Settles O24: the schedule and the stream decide between the three answers, and a misfitting length is rejected by the
decoder. -/
theorem ctrblkXorsTheKeystream : Obligations.CtrblkXorsTheKeystream := by
  refine ⟨fun s W N i block hwv hw hcv hN hi => ?_, fun s block hwv => ?_, fun s W block hwv hw hcv => ?_,
    fun s operand rest hp hlen => ?_⟩
  · exact ⟨blockXor block (keystream W N i), blockXor_getElem _ _, execCtrblk_of_live hwv hw hN hi block⟩
  · exact execCtrblk_of_no_schedule (schedule?_of_wv_false s hwv) block
  · exact execCtrblk_of_cv_false hwv hw hcv block
  · exact step_eLength_of_misfit hp rfl (.inl (by simp [Format.fits, hlen]))

/-- R89: the block of index `2^64 - 1` is answered, and the stream ends with index 0 and `CV = 0`. -/
theorem execCtrblk_of_last_index {s : State} {W : Schedule} {N : Nonce} (hwv : s.wv = true) (hw : s.w = some W)
    (hN : s.nonce = some N) (hi : s.ctr = some (BitVec.allOnes 64)) (block : Block) :
    execCtrblk block s =
      .next (respond .ok (blockXor block (keystream W N (BitVec.allOnes 64))).toList
        { s with ctrBits := some 0, cv := false }) := by
  have hwrap : BitVec.allOnes 64 + 1 = 0 := by decide
  rw [execCtrblk_of_live hwv hw hN hi, hwrap]
  rfl

/-- Settles O25: the index after `2^64 - 1` is 0, which clears `CV`; CTRINIT makes the stream live again. -/
theorem indexExhaustionEndsTheStream : Obligations.IndexExhaustionEndsTheStream := by
  intro s W N N' block block' hwv hw _ hN hi
  obtain ⟨-, hbits⟩ := (nonce_eq_some s N).mp hN
  obtain ⟨t, ht, htwv, htw, htctr, htcv, htnonce⟩ : ∃ t, execCtrblk block s = .next t ∧ t.wv = true ∧ t.w = some W ∧
      t.ctrBits = some 0 ∧ t.cv = false ∧ t.nonceBits = some N :=
    ⟨_, execCtrblk_of_last_index hwv hw hN hi block, hwv, hw, rfl, rfl, hbits⟩
  have hlive := execCtrblk_of_live (s := respond .ok [] (putStream (startStream N') t)) htwv htw rfl rfl block'
  exact ⟨t, _, _, ht, htctr, htcv, htnonce, ctr_of_cv_false t htcv, nonce_of_cv_false t htcv,
    execCtrblk_of_cv_false htwv htw htcv block', rfl, hlive, _, rfl⟩

end Sys2Proof.Machine
end

section
/-!
SUPPORT. A message as blocks: cutting it up, putting it together again, and the zero bytes between the two
(spec/43_ctr_wrapper.md R90, R93).
-/

namespace Sys2Proof.Machine

/-! ## Blocks and bytes -/

theorem joinBlocks_cons (b : Block) (bs : List Block) : joinBlocks (b :: bs) = b.toList ++ joinBlocks bs := rfl

theorem joinBlocks_append (bs cs : List Block) : joinBlocks (bs ++ cs) = joinBlocks bs ++ joinBlocks cs :=
  List.flatMap_append

theorem joinBlocks_singleton (b : Block) : joinBlocks [b] = b.toList := by
  simp [joinBlocks]

theorem drop_joinBlocks (bs : List Block) (i : Nat) : (joinBlocks bs).drop (16 * i) = joinBlocks (bs.drop i) := by
  induction bs generalizing i with
  | nil => simp [joinBlocks]
  | cons b bs ih =>
    cases i with
    | zero => rfl
    | succ i =>
      have hblock : 16 * (i + 1) = b.toList.length + 16 * i := by rw [Vector.length_toList]; omega
      rw [joinBlocks_cons, hblock, List.drop_length_add_append, ih, List.drop_succ_cons]

/-- A longer field is a field and the field after it. -/
theorem toList_fieldOf_add (m n : Nat) (bytes : Bytes) :
    (fieldOf (m + n) bytes).toList = (fieldOf m bytes).toList ++ (fieldOf n (bytes.drop m)).toList := by
  simp [fieldOf, Vector.toList_ofFn, List.ofFn_add]

/-- A field is filled up with `0x00` where bytes are missing. -/
theorem toList_fieldOf_of_length_le {n : Nat} {bytes : Bytes} (h : bytes.length ≤ n) :
    (fieldOf n bytes).toList = bytes ++ List.replicate (n - bytes.length) 0x00 := by
  obtain ⟨m, rfl⟩ := Nat.exists_eq_add_of_le h
  rw [toList_fieldOf_add, toList_fieldOf_of_length_eq rfl, List.drop_length, Nat.add_sub_cancel_left]
  simp [fieldOf, Vector.toList_ofFn, List.ofFn_const]

/-- R90: block `i` is the field of 16 bytes at `16 i`. -/
theorem splitBlocks_eq_map (pt : Bytes) :
    splitBlocks pt = (List.range (blockCount pt.length)).map fun i => fieldOf 16 (pt.drop (16 * i)) := by
  refine List.map_congr_left fun i _ => ?_
  ext j hj
  rw [padBlock, fieldOf_getElem _ _ j hj, fieldOf_getElem _ _ j hj, slice, List.getD_eq_getElem?_getD,
    List.getD_eq_getElem?_getD, List.getElem?_take]
  split
  · rfl
  · next hend => rw [List.getElem?_drop, List.getElem?_eq_none (by omega)]

theorem splitBlocks_getElem (pt : Bytes) (i : Nat) (hi : i < (splitBlocks pt).length) (j : Nat) (hj : j < 16) :
    (splitBlocks pt)[i][j] = pt.getD (16 * i + j) 0x00 := by
  simp [splitBlocks_eq_map, fieldOf_getElem _ _ j hj]

/-- Whole blocks are cut where they were put together. -/
theorem splitBlocks_joinBlocks (bs : List Block) : splitBlocks (joinBlocks bs) = bs := by
  have hlen : (splitBlocks (joinBlocks bs)).length = bs.length := by
    rw [splitBlocks_length, joinBlocks_length, blockCount]
    omega
  refine List.ext_getElem hlen fun i _ hi => ?_
  simp only [splitBlocks_eq_map, List.getElem_map, List.getElem_range]
  rw [drop_joinBlocks, List.drop_eq_getElem_cons hi, joinBlocks_cons, fieldOf_toList_append]

/-- The first `n` blocks make up the field of their bytes. -/
theorem joinBlocks_range_fieldOf (pt : Bytes) (n : Nat) :
    joinBlocks ((List.range n).map fun i => fieldOf 16 (pt.drop (16 * i))) = (fieldOf (16 * n) pt).toList := by
  induction n with
  | zero => simp [joinBlocks, fieldOf]
  | succ n ih =>
    rw [List.range_succ, List.map_append, joinBlocks_append, ih, Nat.mul_succ, toList_fieldOf_add,
      List.map_singleton, joinBlocks_singleton]

/-- R90: putting the blocks together gives the message and its padding. -/
theorem joinBlocks_splitBlocks (pt : Bytes) :
    joinBlocks (splitBlocks pt) = pt ++ List.replicate (16 * blockCount pt.length - pt.length) 0x00 := by
  rw [splitBlocks_eq_map, joinBlocks_range_fieldOf, toList_fieldOf_of_length_le]
  unfold blockCount
  omega

/-! ## Trailing zero bytes -/

theorem stripTrailing_append_zeros (bytes : Bytes) (m : Nat) :
    stripTrailing (bytes ++ List.replicate m 0x00) = stripTrailing bytes := by
  induction m with
  | zero => rw [List.replicate_zero, List.append_nil]
  | succ m ih =>
    rw [List.replicate_succ', ← List.append_assoc, ← ih]
    exact List.rdropWhile_concat_pos _ _ _ rfl

theorem stripTrailing_eq_self {bytes : Bytes} (h : bytes.getLast? ≠ some 0x00) : stripTrailing bytes = bytes := by
  refine List.rdropWhile_eq_self_iff.mpr fun hne hzero => h ?_
  rw [List.getLast?_eq_some_getLast hne, beq_iff_eq.mp hzero]

theorem getLast?_stripTrailing (bytes : Bytes) : (stripTrailing bytes).getLast? ≠ some 0x00 := by
  obtain hnil | hne := eq_or_ne (stripTrailing bytes) []
  · simp [hnil]
  · rw [List.getLast?_eq_some_getLast hne]
    exact fun h => List.rdropWhile_last_not _ _ hne (beq_iff_eq.mpr (Option.some.inj h))

/-- R93: what the loop cuts off is zero bytes. -/
theorem eq_stripTrailing_append_zeros (bytes : Bytes) :
    ∃ m, bytes = stripTrailing bytes ++ List.replicate m 0x00 := by
  have hzeros : ∀ b ∈ bytes.rtakeWhile (· == 0x00), b = 0x00 := fun b hb => by
    simpa using List.mem_rtakeWhile_imp hb
  refine ⟨(bytes.rtakeWhile (· == 0x00)).length, ?_⟩
  rw [← List.eq_replicate_of_mem hzeros]
  exact List.rdropWhile_append_rtakeWhile.symm

theorem stripTrailing_ne_nil {bytes : Bytes} {b : Byte} (hmem : b ∈ bytes) (hb : b ≠ 0x00) :
    stripTrailing bytes ≠ [] := by
  intro hnil
  exact hb (beq_iff_eq.mp (List.rdropWhile_eq_nil_iff.mp hnil b hmem))

/-- The loop stops within `bytes` where that holds a nonzero byte. -/
theorem stripTrailing_append {bytes : Bytes} {b : Byte} (hmem : b ∈ bytes) (hb : b ≠ 0x00) (front : Bytes) :
    stripTrailing (front ++ bytes) = front ++ stripTrailing bytes := by
  obtain ⟨m, hm⟩ := eq_stripTrailing_append_zeros bytes
  have hlast : (front ++ stripTrailing bytes).getLast? ≠ some 0x00 := by
    rw [List.getLast?_append_of_ne_nil _ (stripTrailing_ne_nil hmem hb)]
    exact getLast?_stripTrailing bytes
  calc stripTrailing (front ++ bytes)
      = stripTrailing (front ++ stripTrailing bytes ++ List.replicate m 0x00) := by rw [List.append_assoc, ← hm]
    _ = front ++ stripTrailing bytes := by rw [stripTrailing_append_zeros, stripTrailing_eq_self hlast]

theorem stripZeros_finalBlock_concat (bs : List Block) (last : Block) :
    stripZeros .finalBlock (bs ++ [last]) = joinBlocks bs ++ stripTrailing last.toList := by
  simp [stripZeros]

/-- Settles O37: both scopes run the same loop, on the last block or on the whole, and a nonzero byte in the last block
stops it there. -/
theorem stripZerosCutsTrailingZerosOnly : Obligations.StripZerosCutsTrailingZerosOnly := by
  refine ⟨rfl, fun bs last => ?_, fun bs => ?_, fun bs last j hj hne => ?_⟩
  · obtain ⟨m, hm⟩ := eq_stripTrailing_append_zeros last.toList
    have hlen : 16 = (stripTrailing last.toList).length + m := by simpa using congrArg List.length hm
    refine ⟨_, stripZeros_finalBlock_concat bs last, ?_, getLast?_stripTrailing _⟩
    have hm' : 16 - (stripTrailing last.toList).length = m := by omega
    rwa [hm']
  · obtain ⟨m, hm⟩ := eq_stripTrailing_append_zeros (joinBlocks bs)
    exact ⟨_, m, rfl, hm, getLast?_stripTrailing _⟩
  · have hmem : last[j] ∈ last.toList := by simp
    rw [stripZeros_finalBlock_concat, stripZeros, joinBlocks_append, joinBlocks_singleton,
      stripTrailing_append hmem hne]

/-! ## Stripping the padding of a message -/

/-- R93: with `final_block` the loop runs on the bytes of the last block. -/
theorem stripZeros_finalBlock_eq (bs : List Block) :
    stripZeros .finalBlock bs =
      (joinBlocks bs).take (16 * (bs.length - 1)) ++ stripTrailing ((joinBlocks bs).drop (16 * (bs.length - 1))) := by
  obtain rfl | ⟨front, last, rfl⟩ := bs.eq_nil_or_concat'
  · rfl
  · have hfront : 16 * ((front ++ [last]).length - 1) = (joinBlocks front).length := by
      rw [joinBlocks_length, List.length_append, List.length_singleton, Nat.add_sub_cancel]
    rw [stripZeros_finalBlock_concat, hfront, joinBlocks_append, joinBlocks_singleton, List.take_left, List.drop_left]

/-- R135, R93: with `final_block` a message loses its padding and the zero bytes at the end of its last block. -/
theorem stripZeros_finalBlock_splitBlocks (p : Bytes) :
    stripZeros .finalBlock (splitBlocks p) =
      p.take (16 * ((p.length + 15) / 16 - 1)) ++ stripTrailing (p.drop (16 * ((p.length + 15) / 16 - 1))) := by
  have hcount : blockCount p.length = (p.length + 15) / 16 := rfl
  have hfront : 16 * ((p.length + 15) / 16 - 1) ≤ p.length := by omega
  rw [stripZeros_finalBlock_eq, joinBlocks_splitBlocks, splitBlocks_length, hcount,
    List.take_append_of_le_length hfront, List.drop_append_of_le_length hfront, stripTrailing_append_zeros]

/-- R135, R93: with `whole_message` a message loses its padding and all zero bytes at its end. -/
theorem stripZeros_wholeMessage_splitBlocks (p : Bytes) :
    stripZeros .wholeMessage (splitBlocks p) = stripTrailing p := by
  rw [stripZeros, joinBlocks_splitBlocks, stripTrailing_append_zeros]

/-- R95: a message that does not end in `0x00` loses its padding only. -/
theorem stripZeros_splitBlocks_of_getLast? (scope : StripScope) {p : Bytes} (h : p.getLast? ≠ some 0x00) :
    stripZeros scope (splitBlocks p) = p := by
  have hdrop (k : Nat) : (p.drop k).getLast? ≠ some 0x00 := by
    rw [List.getLast?_drop]
    split
    · exact nofun
    · exact h
  cases scope with
  | finalBlock => rw [stripZeros_finalBlock_splitBlocks, stripTrailing_eq_self (hdrop _), List.take_append_drop]
  | wholeMessage => rw [stripZeros_wholeMessage_splitBlocks, stripTrailing_eq_self h]

end Sys2Proof.Machine
end

section
/-!
SUPPORT. Base64 decoding undoes encoding (spec/44_base64.md R98, R99).
-/

namespace Sys2Proof.Machine

theorem dec6_enc6 : ∀ v : BitVec 6, dec6 (enc6 v) = some v := by decide

theorem enc6_ne_padChar : ∀ v : BitVec 6, enc6 v ≠ padChar := by decide

/-! ## Slices of the bits of a group -/

/-- A slice of a slice is a slice. -/
theorem extractLsb'_extractLsb' {w : Nat} (x : BitVec w) {start len start' len' : Nat} (h : start' + len' ≤ len) :
    (x.extractLsb' start len).extractLsb' start' len' = x.extractLsb' (start + start') len' := by
  ext k hk
  have hlen : start' + k < len := by omega
  simp [hlen, Nat.add_assoc]

theorem extractLsb'_eq_zero_of_slice {w : Nat} {x : BitVec w} {start len : Nat} (hx : x.extractLsb' start len = 0)
    {start' len' : Nat} (h : start' + len' ≤ len) : x.extractLsb' (start + start') len' = 0 := by
  rw [← extractLsb'_extractLsb' x h, hx]
  exact BitVec.extractLsb'_zero

/-- R98: where the three bytes of a group stand in its 24 bits. -/
theorem extractLsb'_group (b0 b1 b2 : Byte) :
    (b0 ++ b1 ++ b2).extractLsb' 16 8 = b0 ∧ (b0 ++ b1 ++ b2).extractLsb' 8 8 = b1 ∧
      (b0 ++ b1 ++ b2).extractLsb' 0 8 = b2 := by
  refine ⟨?_, ?_, BitVec.extractLsb'_append_eq_right⟩ <;> rw [BitVec.extractLsb'_append_eq_of_le (by omega)]
  · exact BitVec.extractLsb'_append_eq_left
  · exact BitVec.extractLsb'_append_eq_right

/-! ## The three shapes of a group -/

/-- R99: four characters give back the 24 bits they were made of. -/
theorem decodeFull_enc6 (v : BitVec 24) :
    decodeFull (enc6 (v.extractLsb' 18 6)) (enc6 (v.extractLsb' 12 6)) (enc6 (v.extractLsb' 6 6))
      (enc6 (v.extractLsb' 0 6)) = some [v.extractLsb' 16 8, v.extractLsb' 8 8, v.extractLsb' 0 8] := by
  simp only [decodeFull, dec6_enc6]
  repeat rw [BitVec.extractLsb'_append_extractLsb'_eq_extractLsb' (by rfl)]
  rw [BitVec.extractLsb'_eq_self]

/-- R99: three characters give back two bytes, where the bits after them are 0. -/
theorem decodePad1_enc6 (reject : Bool) {v : BitVec 24} (h : v.extractLsb' 0 8 = 0) :
    decodePad1 reject (enc6 (v.extractLsb' 18 6)) (enc6 (v.extractLsb' 12 6)) (enc6 (v.extractLsb' 6 6)) =
      some [v.extractLsb' 16 8, v.extractLsb' 8 8] := by
  have hunused : v.extractLsb' (6 + 0) 2 = 0 := extractLsb'_eq_zero_of_slice (start' := 6) h (by decide)
  simp only [decodePad1, dec6_enc6]
  repeat rw [BitVec.extractLsb'_append_extractLsb'_eq_extractLsb' (by rfl)]
  rw [extractLsb'_extractLsb' v (by decide), hunused, if_neg (fun hne => hne.2 rfl),
    extractLsb'_extractLsb' v (by decide), extractLsb'_extractLsb' v (by decide)]

/-- R99: two characters give back one byte, where the bits after it are 0. -/
theorem decodePad2_enc6 (reject : Bool) {v : BitVec 24} (h : v.extractLsb' 8 8 = 0) :
    decodePad2 reject (enc6 (v.extractLsb' 18 6)) (enc6 (v.extractLsb' 12 6)) = some [v.extractLsb' 16 8] := by
  have hunused : v.extractLsb' (12 + 0) 4 = 0 := extractLsb'_eq_zero_of_slice (start' := 4) h (by decide)
  simp only [decodePad2, dec6_enc6]
  rw [BitVec.extractLsb'_append_extractLsb'_eq_extractLsb' (by rfl), extractLsb'_extractLsb' v (by decide), hunused,
    if_neg (fun hne => hne.2 rfl), extractLsb'_extractLsb' v (by decide)]

/-! ## Whole texts -/

/-- R99: a group that does not end in `=` is decoded by itself, wherever it stands. -/
theorem base64Dec_group {reject : Bool} {q0 q1 q2 q3 : Byte} {head d rest : Bytes} (hq : q3 ≠ padChar)
    (hhead : decodeFull q0 q1 q2 q3 = some head) (hrest : base64Dec reject rest = some d) :
    base64Dec reject (q0 :: q1 :: q2 :: q3 :: rest) = some (head ++ d) := by
  cases rest with
  | nil =>
    obtain rfl : [] = d := by simpa [base64Dec] using hrest
    rw [base64Dec, decodeLast, if_neg hq, hhead, List.append_nil]
  | cons b bs => simp [base64Dec, hhead, hrest]

/-- R99: decoding undoes encoding, whatever the parameter says of unused bits, because they are 0. -/
theorem base64Dec_base64Enc (reject : Bool) (d : Bytes) : base64Dec reject (base64Enc d) = some d := by
  induction d using base64Enc.induct with
  | case1 => rfl
  | case2 b0 =>
    obtain ⟨h0, h1, -⟩ := extractLsb'_group b0 0x00 0x00
    have hdec := decodePad2_enc6 reject h1
    rw [h0] at hdec
    exact hdec
  | case3 b0 b1 =>
    obtain ⟨h0, h1, h2⟩ := extractLsb'_group b0 b1 0x00
    have hdec := decodePad1_enc6 reject h2
    rw [h0, h1] at hdec
    exact (if_neg (enc6_ne_padChar _)).trans hdec
  | case4 b0 b1 b2 rest c0 c1 c2 c3 hgroup ih =>
    obtain ⟨h0, h1, h2⟩ := extractLsb'_group b0 b1 b2
    have hdec := decodeFull_enc6 (b0 ++ b1 ++ b2)
    rw [h0, h1, h2] at hdec
    exact base64Dec_group (enc6_ne_padChar _) hdec ih

end Sys2Proof.Machine
end

section
/-!
SUPPORT. Whole messages: ENCMSG and DECMSG as runs of block steps, their outcomes, and the round trip
(spec/43_ctr_wrapper.md R90 to R95).
-/

namespace Sys2Proof.Machine

/-! ## The stream by its block index -/

/-- The stream registers before the block of index `k`, `k ≤ 2^64` (R89). -/
def streamAt (nonce : Nonce) (k : Nat) : Stream :=
  { nonce := nonce, ctr := BitVec.ofNat 64 k, cv := decide (k ≠ 2 ^ 64) }

theorem startStream_eq_streamAt (nonce : Nonce) : startStream nonce = streamAt nonce 0 := rfl

theorem streamAt_of_lt (nonce : Nonce) {k : Nat} (h : k < 2 ^ 64) :
    streamAt nonce k = { nonce := nonce, ctr := BitVec.ofNat 64 k, cv := true } := by
  rw [streamAt, decide_eq_true h.ne]

/-- R89: `runBlocks_stream` for a stream given by its index. -/
theorem runBlocks_streamAt (W : Schedule) (nonce : Nonce) {bs : List Block} {k : Nat} (h : k + bs.length ≤ 2 ^ 64) :
    (runBlocks W (streamAt nonce k) bs).2 = streamAt nonce (k + bs.length) := by
  cases bs with
  | nil => rfl
  | cons b bs =>
    have hk : k < 2 ^ 64 := by rw [List.length_cons] at h; omega
    rw [streamAt_of_lt nonce hk, runBlocks_stream W nonce (b :: bs) k hk h, streamAt]

/-- An advance is what a block step does to the stream, whatever the block and the schedule. -/
theorem advance_streamAt (nonce : Nonce) {k : Nat} (h : k < 2 ^ 64) :
    advance (streamAt nonce k) = streamAt nonce (k + 1) :=
  runBlocks_streamAt (Vector.replicate 60 ⟨0, 0, 0, 0⟩) nonce (bs := [Vector.replicate 16 0]) h

/-- R90: the stream registers after a message from its start. -/
theorem runBlocks_startStream (W : Schedule) (nonce : Nonce) {bs : List Block} (h : bs.length ≤ 2 ^ 64) :
    (runBlocks W (startStream nonce) bs).2 = streamAt nonce bs.length := by
  rw [startStream_eq_streamAt, runBlocks_streamAt W nonce (by omega), Nat.zero_add]

theorem runBlocks_startStream_getElem (W : Schedule) (nonce : Nonce) (bs : List Block) (i : Nat)
    (hi : i < (runBlocks W (startStream nonce) bs).1.length) :
    (runBlocks W (startStream nonce) bs).1[i] =
      blockXor (bs[i]'(by simpa using hi)) (keystream W nonce (BitVec.ofNat 64 i)) := by
  have hi' : i < bs.length := by simpa using hi
  have h := runBlocks_getElem? W (startStream nonce) bs i
  rw [List.getElem?_eq_getElem hi, List.getElem?_eq_getElem hi'] at h
  simpa [startStream] using h

/-- R88: XOR with the keystream is its own inverse. -/
theorem blockXor_blockXor (a b : Block) : blockXor (blockXor a b) b = a := by
  ext j hj
  simp [blockXor_getElem]

theorem runBlocks_runBlocks (W : Schedule) (st : Stream) (bs : List Block) :
    (runBlocks W st (runBlocks W st bs).1).1 = bs := by
  induction bs generalizing st with
  | nil => rfl
  | cons b bs ih => simp only [runBlocks_cons, blockXor_blockXor, ih]

/-! ## ENCMSG -/

theorem tooManyBlocks_eq_true (n : Nat) : tooManyBlocks n = true ↔ 2 ^ 64 < n := by
  simp [tooManyBlocks]

/-- R90, R108: the block limit is looked at before the state. -/
theorem execEncmsg_of_overlong {pt : Bytes} (h : 2 ^ 64 < blockCount pt.length) (nonce : Nonce) (s : State) :
    execEncmsg nonce pt s = raise .eLength s := by
  rw [execEncmsg, if_pos ((tooManyBlocks_eq_true _).mpr h)]

theorem execEncmsg_of_no_schedule {s : State} {pt : Bytes} (hfits : blockCount pt.length ≤ 2 ^ 64)
    (hW : schedule? s = none) (nonce : Nonce) : execEncmsg nonce pt s = raise .eNokey s := by
  simp [execEncmsg, (tooManyBlocks_eq_false _).mpr hfits, hW]

theorem encryptStream_snd (W : Schedule) (nonce : Nonce) {pt : Bytes} (hfits : blockCount pt.length ≤ 2 ^ 64) :
    (encryptStream W nonce pt).2 = streamAt nonce (blockCount pt.length) := by
  rw [← splitBlocks_length] at hfits ⊢
  exact runBlocks_startStream W nonce hfits

/-- R91: the answer of `ENCMSG` and the registers after it. -/
theorem execEncmsg_of_schedule {s : State} {W : Schedule} {pt : Bytes} (hfits : blockCount pt.length ≤ 2 ^ 64)
    (hW : schedule? s = some W) (nonce : Nonce) :
    execEncmsg nonce pt s =
      finish .ok (base64Enc (encryptStream W nonce pt).1) (putStream (streamAt nonce (blockCount pt.length)) s) := by
  simp [execEncmsg, (tooManyBlocks_eq_false _).mpr hfits, hW, encryptStream_snd W nonce hfits]

/-- Settles O26: the framed message is a run of block steps from index 0 over the padded blocks. -/
theorem encmsgAnswersTheWireText : Obligations.EncmsgAnswersTheWireText := by
  refine ⟨fun s W nonce pt n hwv hw hn hfits => ?_, fun s nonce pt hwv hfits => ?_⟩
  · subst hn
    refine ⟨(runBlocks W (startStream nonce) (splitBlocks pt)).1, by rw [runBlocks_length, splitBlocks_length]; rfl,
      fun i hi j hj => ?_, execEncmsg_of_schedule hfits ((schedule?_eq_some s W).mpr ⟨hwv, hw⟩) nonce⟩
    rw [runBlocks_startStream_getElem, blockXor_getElem, splitBlocks_getElem _ _ _ _ hj, keystream]
  · exact execEncmsg_of_no_schedule hfits (schedule?_of_wv_false s hwv) nonce

/-! ## ENCMSG and the block commands -/

/-- The state after commands that answered these blocks and wrote nothing else. -/
def answerBlocks (outs : List Block) (s : State) : State :=
  { s with responses := s.responses ++ outs.map fun b => { status := .ok, result := b.toList } }

theorem answerBlocks_nil (s : State) : answerBlocks [] s = s := by
  simp [answerBlocks]

theorem answerBlocks_cons (b : Block) (outs : List Block) (s : State) :
    answerBlocks (b :: outs) s = answerBlocks outs (respond .ok b.toList s) := by
  simp [answerBlocks, respond]

theorem execAll_cons_of_next {i : Instr} {s t : State} (h : exec i s = .next t) (is : List Instr) :
    execAll (i :: is) s = execAll is t := by
  simp only [execAll, h]

/-- R88: a `CTRBLK` at an index below `2^64` answers its block step and moves to the next index. -/
theorem exec_ctrblk_of_streamAt {s : State} {W : Schedule} (hW : schedule? s = some W) (nonce : Nonce) {k : Nat}
    (hk : k < 2 ^ 64) (b : Block) :
    exec (.ctrblk b) (putStream (streamAt nonce k) s) =
      .next (putStream (streamAt nonce (k + 1))
        (respond .ok (blockXor b (keystream W nonce (BitVec.ofNat 64 k))).toList s)) := by
  have hst : stream? (putStream (streamAt nonce k) s) = some (streamAt nonce k) := by
    simp [stream?_eq_some, streamAt_of_lt nonce hk]
  have hstep := execCtrblk_of_stream ((schedule?_putStream _ s).trans hW) hst b
  rw [advance_streamAt nonce hk] at hstep
  exact hstep

/-- D22: one `CTRBLK` per block is the run of block steps. -/
theorem execAll_ctrblk {s : State} {W : Schedule} (hW : schedule? s = some W) (nonce : Nonce) {k : Nat}
    {bs : List Block} (h : k + bs.length ≤ 2 ^ 64) :
    execAll (bs.map fun b => .ctrblk b) (putStream (streamAt nonce k) s) =
      .next (putStream (streamAt nonce (k + bs.length)) (answerBlocks (runBlocks W (streamAt nonce k) bs).1 s)) := by
  induction bs generalizing s k with
  | nil => rw [runBlocks_nil, answerBlocks_nil]; rfl
  | cons b bs ih =>
    rw [List.length_cons] at h ⊢
    have hk : k < 2 ^ 64 := by omega
    have hrest : k + 1 + bs.length ≤ 2 ^ 64 := by omega
    have hnext : k + (bs.length + 1) = k + 1 + bs.length := by omega
    rw [List.map_cons, execAll_cons_of_next (exec_ctrblk_of_streamAt hW nonce hk b), runBlocks_cons, answerBlocks_cons,
      advance_streamAt nonce hk, hnext]
    exact ih (s := respond .ok _ s) hW hrest

/-- Settles O27: both ways run the same block steps from index 0. -/
theorem encmsgEqualsTheBlockCommands : Obligations.EncmsgEqualsTheBlockCommands := by
  intro s W nonce pt hwv hw hfits
  have hW : schedule? s = some W := (schedule?_eq_some s W).mpr ⟨hwv, hw⟩
  have hlen : 0 + (splitBlocks pt).length = blockCount pt.length := by rw [splitBlocks_length, Nat.zero_add]
  have hinit : exec (.ctrinit nonce) s = .next (putStream (streamAt nonce 0) (respond .ok [] s)) := rfl
  have hblocks := execAll_ctrblk (s := respond .ok [] s) hW nonce (hlen.trans_le hfits)
  rw [← execAll_cons_of_next hinit, hlen] at hblocks
  refine ⟨_, _, (runBlocks W (streamAt nonce 0) (splitBlocks pt)).1.map Vector.toList, hblocks,
    execEncmsg_of_schedule hfits hW nonce, ⟨rfl, rfl⟩, ⟨rfl, rfl, rfl⟩, ?_, ?_⟩
  · simp [answerBlocks]
  · simp [Answered, encryptStream, joinBlocks, startStream_eq_streamAt, List.flatMap_def]

/-! ## DECMSG -/

theorem textBlockCount_of_none {c : Config} {text : Bytes} (h : base64Dec c.b64RejectNoncanonical text = none) :
    textBlockCount c text = 0 := by
  rw [textBlockCount, h]

theorem textBlockCount_of_some {c : Config} {text F : Bytes} (h : base64Dec c.b64RejectNoncanonical text = some F) :
    textBlockCount c text = (F.length - 8) / 16 := by
  rw [textBlockCount, h]

/-- R108 (log entry 8): the block limit is looked at before the state. -/
theorem execDecmsg_of_overlong {s : State} {text : Bytes} (h : 2 ^ 64 < textBlockCount s.config text) :
    execDecmsg text s = raise .eLength s := by
  rw [execDecmsg, if_pos ((tooManyBlocks_eq_true _).mpr h)]

theorem execDecmsg_of_no_schedule {s : State} {text : Bytes} (hfits : textBlockCount s.config text ≤ 2 ^ 64)
    (hW : schedule? s = none) : execDecmsg text s = raise .eNokey s := by
  simp [execDecmsg, (tooManyBlocks_eq_false _).mpr hfits, hW]

theorem execDecmsg_of_no_message {s : State} {W : Schedule} {text : Bytes} (hW : schedule? s = some W)
    (hF : base64Dec s.config.b64RejectNoncanonical text = none) : execDecmsg text s = raise .eB64 s := by
  have hfits : tooManyBlocks (textBlockCount s.config text) = false := by rw [textBlockCount_of_none hF]; rfl
  simp [execDecmsg, hfits, hW, hF]

/-- R94: what `DECMSG` does with a key and a text that decodes, in the order of its checks. -/
theorem execDecmsg_of_message {s : State} {W : Schedule} {text F : Bytes} (hW : schedule? s = some W)
    (hF : base64Dec s.config.b64RejectNoncanonical text = some F) (hfits : (F.length - 8) / 16 ≤ 2 ^ 64) :
    execDecmsg text s =
      if F.length < 8 then raise .eHeader s
      else if (F.length - 8) % 16 ≠ 0 then raise .eRagged s
      else if validText s.config (decryptStream s.config W F).1 then
        finish .ok (decryptStream s.config W F).1 (putStream (decryptStream s.config W F).2 s)
      else finish .passthru text (putStream (decryptStream s.config W F).2 s) := by
  have hfits' : tooManyBlocks (textBlockCount s.config text) = false := by
    rwa [textBlockCount_of_some hF, tooManyBlocks_eq_false]
  simp [execDecmsg, hfits', hW, hF]

/-- R44: the number of blocks of a framed message of whole blocks. -/
theorem blockCount_body {F : Bytes} {n : Nat} (h : F.length = 8 + 16 * n) : blockCount (F.drop 8).length = n := by
  rw [List.length_drop, h, blockCount]
  omega

theorem decryptStream_snd (c : Config) (W : Schedule) {F : Bytes} {n : Nat} (hlen : F.length = 8 + 16 * n)
    (hn : n ≤ 2 ^ 64) : (decryptStream c W F).2 = streamAt (fieldOf 8 F) n := by
  have hcount : (splitBlocks (F.drop 8)).length = n := by rw [splitBlocks_length, blockCount_body hlen]
  subst hcount
  exact runBlocks_startStream W _ hn

/-- R94: a message of whole blocks writes the stream registers, and its plaintext decides between the two answers. -/
theorem execDecmsg_of_whole_blocks {s : State} {W : Schedule} {text F : Bytes} {n : Nat} (hW : schedule? s = some W)
    (hF : base64Dec s.config.b64RejectNoncanonical text = some F) (hlen : F.length = 8 + 16 * n) (hn : n ≤ 2 ^ 64) :
    execDecmsg text s =
      if validText s.config (decryptStream s.config W F).1 then
        finish .ok (decryptStream s.config W F).1 (putStream (streamAt (fieldOf 8 F) n) s)
      else finish .passthru text (putStream (streamAt (fieldOf 8 F) n) s) := by
  rw [execDecmsg_of_message hW hF (by omega), if_neg (by omega), if_neg (by omega), decryptStream_snd _ W hlen hn]

/-- Settles O5: both commands count the blocks before they look at the state. -/
theorem overlongMessagesRaiseELength : Obligations.OverlongMessagesRaiseELength := by
  refine ⟨fun s nonce pt h => execEncmsg_of_overlong h nonce s, fun s text F hF h => execDecmsg_of_overlong ?_⟩
  rwa [textBlockCount_of_some hF]

/-- Settles O28: the checks in their order, and then the run of block steps over the body. -/
theorem decmsgOutcomes : Obligations.DecmsgOutcomes := by
  refine ⟨fun s text hwv hfits => ?_, fun s W text hwv hw hF => ?_, fun s W text F hwv hw hF hlen => ?_,
    fun s W text F hwv hw hF hlen hfits hragged => ?_, fun s W text F n hwv hw hF hlen hn => ?_⟩
  · refine execDecmsg_of_no_schedule ?_ (schedule?_of_wv_false s hwv)
    cases hF : base64Dec s.config.b64RejectNoncanonical text with
    | none => rw [textBlockCount_of_none hF]; exact Nat.zero_le _
    | some F => rw [textBlockCount_of_some hF]; exact hfits F hF
  · exact execDecmsg_of_no_message ((schedule?_eq_some s W).mpr ⟨hwv, hw⟩) hF
  · exact (execDecmsg_of_message ((schedule?_eq_some s W).mpr ⟨hwv, hw⟩) hF (by omega)).trans (if_pos hlen)
  · have hexec := execDecmsg_of_message ((schedule?_eq_some s W).mpr ⟨hwv, hw⟩) hF hfits
    rw [if_neg hlen.not_gt, if_pos hragged] at hexec
    exact hexec
  · have hexec := execDecmsg_of_whole_blocks ((schedule?_eq_some s W).mpr ⟨hwv, hw⟩) hF hlen hn
    refine ⟨fieldOf 8 F, (runBlocks W (startStream (fieldOf 8 F)) (splitBlocks (F.drop 8))).1, _,
      by rw [runBlocks_length, splitBlocks_length, blockCount_body hlen], fieldOf_getElem 8 F, fun i hi j hj => ?_, rfl,
      fun hvalid => hexec.trans (if_pos hvalid), fun hinvalid => hexec.trans (if_neg (Bool.eq_false_iff.mp hinvalid))⟩
    rw [runBlocks_startStream_getElem, blockXor_getElem, splitBlocks_getElem _ _ _ _ hj, keystream, Nat.add_assoc]
    simp

/-! ## The round trip -/

/-- R93, R94: the same block steps undo the encryption, so the padded blocks come back and are stripped. -/
theorem decryptStream_encryptStream (c : Config) (W : Schedule) (nonce : Nonce) (p : Bytes) :
    (decryptStream c W (encryptStream W nonce p).1).1 = stripZeros c.stripScope (splitBlocks p) := by
  have hbody (x : Bytes) : (nonce.toList ++ x).drop 8 = x := by simp
  simp only [decryptStream, encryptStream, fieldOf_toList_append, hbody, splitBlocks_joinBlocks, runBlocks_runBlocks]

/-- Settles O33: decryption gives the padded blocks back, and stripping takes the padding off with the message's own zero
bytes. -/
theorem decryptionLosesTrailingZerosOnly : Obligations.DecryptionLosesTrailingZerosOnly := by
  intro c W nonce p
  rw [decryptStream_encryptStream]
  cases c.stripScope with
  | finalBlock => exact stripZeros_finalBlock_splitBlocks p
  | wholeMessage => exact stripZeros_wholeMessage_splitBlocks p

/-- R95: `DECMSG` of an encrypted message under the same schedule gives a valid text back that does not end in `0x00`. -/
theorem execDecmsg_of_encrypted {s : State} {W : Schedule} {p : Bytes} (nonce : Nonce) (hW : schedule? s = some W)
    (hvalid : validText s.config p = true) (hlast : p.getLast? ≠ some 0x00) (hfits : blockCount p.length ≤ 2 ^ 64) :
    execDecmsg (base64Enc (encryptStream W nonce p).1) s =
      finish .ok p (putStream (streamAt (fieldOf 8 (encryptStream W nonce p).1) (blockCount p.length)) s) := by
  have hplain : (decryptStream s.config W (encryptStream W nonce p).1).1 = p := by
    rw [decryptStream_encryptStream, stripZeros_splitBlocks_of_getLast? _ hlast]
  rw [execDecmsg_of_whole_blocks hW (base64Dec_base64Enc _ _) (encryptStream_length W nonce p) hfits, hplain,
    if_pos hvalid]

/-- Settles O32: both engines hold the password's schedule when the message comes. -/
theorem messageRoundTrip : Obligations.MessageRoundTrip := by
  intro s s' p pw nonce hconfig hvalid hlast hfits
  have hvalid' : validText (derived pw s').config p = true := by rwa [derived_config, hconfig]
  exact ⟨derived pw s, _, derived pw s', _, _, rfl, execEncmsg_of_schedule hfits (schedule?_derived pw s) nonce, rfl,
    rfl, execDecmsg_of_encrypted nonce (schedule?_derived pw s') hvalid' hlast hfits, rfl⟩

end Sys2Proof.Machine
end

section
/-!
SUPPORT. Valid text (spec/43_ctr_wrapper.md R92): the loop over sequences finds every way to cut a byte string into
sequences of the table, because the first byte of a sequence selects its row.
-/

namespace Sys2Proof.Machine

/-- A byte string has the form of a row of the table. -/
def FitsForm (form : List (Nat × Nat)) (q : Bytes) : Prop :=
  List.Forall₂ (fun range (b : Byte) => range.1 ≤ b.toNat ∧ b.toNat ≤ range.2) form q

/-- R92: a concatenation of sequences, each of the form of a row of the table. -/
def IsText (p : Bytes) : Prop :=
  ∃ seqs : List Bytes, p = seqs.flatten ∧ ∀ q ∈ seqs, ∃ form ∈ utf8Forms, FitsForm form q

/-! ## One sequence -/

theorem fitsForm_nil (q : Bytes) : FitsForm [] q ↔ q = [] :=
  List.forall₂_nil_left_iff

theorem fitsForm_cons (range : Nat × Nat) (form : List (Nat × Nat)) (q : Bytes) :
    FitsForm (range :: form) q ↔ ∃ b q', inRange range b = true ∧ FitsForm form q' ∧ q = b :: q' := by
  simp [FitsForm, inRange, List.forall₂_cons_left_iff]

theorem dropForm_eq_some_iff (form : List (Nat × Nat)) (p rest : Bytes) :
    dropForm form p = some rest ↔ ∃ q, p = q ++ rest ∧ FitsForm form q := by
  induction form generalizing p with
  | nil => simp [dropForm, fitsForm_nil]
  | cons range form ih =>
    cases p with
    | nil => simp [dropForm, fitsForm_cons]
    | cons b p =>
      cases hb : inRange range b with
      | false => simp [dropForm, fitsForm_cons, hb]
      | true => simp [dropForm, fitsForm_cons, hb, ih]

/-- No row of the table is empty. -/
theorem utf8Forms_ne_nil : ∀ form ∈ utf8Forms, form ≠ [] := by decide

/-- R92: the ranges of the first bytes of two rows do not meet. -/
theorem utf8Forms_heads_disjoint : ∀ form ∈ utf8Forms, ∀ form' ∈ utf8Forms, form = form' ∨
    (form.headD (0, 0)).2 < (form'.headD (0, 0)).1 ∨ (form'.headD (0, 0)).2 < (form.headD (0, 0)).1 := by
  decide

/-- A sequence of the table begins with a byte of its row's first range. -/
theorem FitsForm.exists_cons {form : List (Nat × Nat)} {q : Bytes} (h : FitsForm form q) (hform : form ∈ utf8Forms) :
    ∃ b q', q = b :: q' ∧ (form.headD (0, 0)).1 ≤ b.toNat ∧ b.toNat ≤ (form.headD (0, 0)).2 := by
  cases form with
  | nil => exact absurd rfl (utf8Forms_ne_nil [] hform)
  | cons range form =>
    obtain ⟨b, q', hb, -, rfl⟩ := (fitsForm_cons range form q).mp h
    exact ⟨b, q', rfl, of_decide_eq_true hb⟩

/-- Two sequences at the front of one byte string are the same. -/
theorem eq_of_fitsForm_append {form form' : List (Nat × Nat)} {q q' rest rest' : Bytes} (hform : form ∈ utf8Forms)
    (hform' : form' ∈ utf8Forms) (h : FitsForm form q) (h' : FitsForm form' q') (hp : q ++ rest = q' ++ rest') :
    rest = rest' := by
  obtain ⟨b, r, hq, hlow, hhigh⟩ := h.exists_cons hform
  obtain ⟨b', r', hq', hlow', hhigh'⟩ := h'.exists_cons hform'
  obtain rfl : b = b' := by simpa [hq, hq'] using congrArg List.head? hp
  obtain rfl | hdisjoint := utf8Forms_heads_disjoint form hform form' hform'
  · have hlen : q.length = q'.length := h.length_eq.symm.trans h'.length_eq
    exact List.append_inj_right hp hlen
  · omega

/-- R92: the loop takes off the one sequence of the table that stands at the front. -/
theorem dropSequence_eq_some_iff (p rest : Bytes) :
    dropSequence p = some rest ↔ ∃ q, p = q ++ rest ∧ ∃ form ∈ utf8Forms, FitsForm form q := by
  have hsound {rest : Bytes} (h : dropSequence p = some rest) :
      ∃ q, p = q ++ rest ∧ ∃ form ∈ utf8Forms, FitsForm form q := by
    obtain ⟨form, hform, hdrop⟩ := List.exists_of_findSome?_eq_some h
    obtain ⟨q, hp, hq⟩ := (dropForm_eq_some_iff form p rest).mp hdrop
    exact ⟨q, hp, form, hform, hq⟩
  refine ⟨hsound, fun ⟨q, hp, form, hform, hq⟩ => ?_⟩
  have hsome : (dropSequence p).isSome = true := by
    refine List.findSome?_isSome_iff.mpr ⟨form, hform, ?_⟩
    rw [(dropForm_eq_some_iff form p rest).mpr ⟨q, hp, hq⟩]
    rfl
  obtain ⟨rest', hrest'⟩ := Option.isSome_iff_exists.mp hsome
  obtain ⟨q', hp', form', hform', hq'⟩ := hsound hrest'
  rw [hrest', eq_of_fitsForm_append hform hform' hq hq' (hp.symm.trans hp')]

theorem length_le_of_dropSequence {b : Byte} {p rest : Bytes} (h : dropSequence (b :: p) = some rest) :
    rest.length ≤ p.length := by
  obtain ⟨q, hp, form, hform, hq⟩ := (dropSequence_eq_some_iff _ _).mp h
  obtain ⟨b', q', rfl, -⟩ := hq.exists_cons hform
  have hlen := congrArg List.length hp
  simp only [List.length_cons, List.length_append] at hlen
  omega

/-! ## All sequences -/

theorem isText_nil : IsText [] :=
  ⟨[], rfl, nofun⟩

theorem isText_cons_iff (b : Byte) (p : Bytes) :
    IsText (b :: p) ↔ ∃ rest, dropSequence (b :: p) = some rest ∧ IsText rest := by
  constructor
  · rintro ⟨seqs, hp, hseqs⟩
    cases seqs with
    | nil => cases hp
    | cons q seqs =>
      obtain ⟨hq, hseqs⟩ := List.forall_mem_cons.mp hseqs
      exact ⟨seqs.flatten, (dropSequence_eq_some_iff _ _).mpr ⟨q, hp, hq⟩, seqs, rfl, hseqs⟩
  · rintro ⟨rest, hdrop, seqs, rfl, hseqs⟩
    obtain ⟨q, hp, hq⟩ := (dropSequence_eq_some_iff _ _).mp hdrop
    exact ⟨q :: seqs, hp, List.forall_mem_cons.mpr ⟨hq, hseqs⟩⟩

/-- With fuel for every byte the loop decides whether the byte string is such a concatenation. -/
theorem utf8Within_iff {fuel : Nat} {p : Bytes} (h : p.length ≤ fuel) : utf8Within fuel p = true ↔ IsText p := by
  induction fuel generalizing p with
  | zero =>
    obtain rfl := List.length_eq_zero_iff.mp (Nat.le_zero.mp h)
    simp [utf8Within, isText_nil]
  | succ fuel ih =>
    cases p with
    | nil => simp [utf8Within, isText_nil]
    | cons b p =>
      rw [isText_cons_iff, utf8Within]
      cases hdrop : dropSequence (b :: p) with
      | none => simp
      | some rest =>
        have hrest : rest.length ≤ fuel := (length_le_of_dropSequence hdrop).trans (Nat.le_of_succ_le_succ h)
        simp [ih hrest]

/-- Settles O38: the loop has fuel for every byte. -/
theorem validTextIsConcatenationOfSequences : Obligations.ValidTextIsConcatenationOfSequences :=
  fun _ => utf8Within_iff le_rfl

end Sys2Proof.Machine
end

section
/-!
SUPPORT. Base64 (spec/44_base64.md R97 to R102): the table in both directions, the packing of groups, and the texts that
decode, said once as a relation (`DecodesTo`).
-/

namespace Sys2Proof.Machine

/-! ## The table of R97 -/

theorem isB64Char_enc6 (v : BitVec 6) : IsB64Char v.toNat (enc6 v) := by
  unfold enc6 IsB64Char
  split
  · bv_omega
  split
  · bv_omega
  split
  · bv_omega
  split
  · simp [*]
  · have hlast : v.toNat = 63 := by omega
    simp [hlast]

/-- R97: a row of the table has one character. -/
theorem eq_enc6_of_isB64Char {v : BitVec 6} {ch : Byte} (h : IsB64Char v.toNat ch) : ch = enc6 v := by
  have henc := isB64Char_enc6 v
  unfold IsB64Char at h henc
  bv_omega

theorem dec6_eq_some_iff_eq_enc6 (ch : Byte) (v : BitVec 6) : dec6 ch = some v ↔ ch = enc6 v := by
  refine ⟨fun h => eq_enc6_of_isB64Char ?_, fun h => h ▸ dec6_enc6 v⟩
  unfold dec6 at h
  unfold IsB64Char
  split at h
  · cases h; bv_omega
  split at h
  · cases h; bv_omega
  split at h
  · cases h; bv_omega
  split at h
  · cases h; simp [*]
  split at h
  · cases h; simp [*]
  · cases h

theorem dec6_eq_some_iff_isB64Char (ch : Byte) (v : BitVec 6) : dec6 ch = some v ↔ IsB64Char v.toNat ch := by
  rw [dec6_eq_some_iff_eq_enc6]
  exact ⟨fun h => h ▸ isB64Char_enc6 v, eq_enc6_of_isB64Char⟩

theorem IsB64Char.lt {v : Nat} {ch : Byte} (h : IsB64Char v ch) : v < 64 := by
  unfold IsB64Char at h
  omega

/-- A character of the table decodes to its value. -/
theorem IsB64Char.exists_dec6 {v : Nat} {ch : Byte} (h : IsB64Char v ch) :
    ∃ x : BitVec 6, x.toNat = v ∧ dec6 ch = some x := by
  have hx : (BitVec.ofNat 6 v).toNat = v := Nat.mod_eq_of_lt h.lt
  exact ⟨BitVec.ofNat 6 v, hx, (dec6_eq_some_iff_isB64Char _ _).mpr (hx.symm ▸ h)⟩

/-! ## The bits of a group as a number -/

theorem toNat_append_eq_add {m n : Nat} (x : BitVec m) (y : BitVec n) :
    (x ++ y).toNat = x.toNat * 2 ^ n + y.toNat := by
  rw [BitVec.toNat_append, ← Nat.shiftLeft_add_eq_or_of_lt y.isLt, Nat.shiftLeft_eq]

/-- R98: the four characters of a group are those of its bits 23:18, 17:12, 11:6 and 5:0. -/
theorem isB64Char_encodeGroup (b0 b1 b2 : Byte) {N : Nat}
    (hN : N = b0.toNat * 2 ^ 16 + b1.toNat * 2 ^ 8 + b2.toNat) :
    IsB64Char (N / 2 ^ 18) (encodeGroup b0 b1 b2).1 ∧
      IsB64Char (N / 2 ^ 12 % 64) (encodeGroup b0 b1 b2).2.1 ∧
      IsB64Char (N / 2 ^ 6 % 64) (encodeGroup b0 b1 b2).2.2.1 ∧
      IsB64Char (N % 64) (encodeGroup b0 b1 b2).2.2.2 := by
  have hbits : (b0 ++ b1 ++ b2).toNat = N := by
    simp only [toNat_append_eq_add, hN]
    omega
  have hslice (start : Nat) :
      IsB64Char (N / 2 ^ start % 64) (enc6 ((b0 ++ b1 ++ b2).extractLsb' start 6)) := by
    have hvalue : ((b0 ++ b1 ++ b2).extractLsb' start 6).toNat = N / 2 ^ start % 64 := by
      rw [BitVec.extractLsb'_toNat, hbits, Nat.shiftRight_eq_div_pow]
    exact hvalue ▸ isB64Char_enc6 _
  have hhigh : N / 2 ^ 18 % 64 = N / 2 ^ 18 := by omega
  exact ⟨hhigh ▸ hslice 18, hslice 12, hslice 6, Nat.div_one N ▸ hslice 0⟩

/-- Settles O58: the characters of every group are those of `isB64Char_encodeGroup`, a short group being filled with
zero bytes. -/
theorem encodedGroupsFollowTheTable : Obligations.EncodedGroupsFollowTheTable := by
  refine ⟨isB64Char_enc6, dec6_eq_some_iff_isB64Char, rfl, fun b0 b1 b2 rest => ?_, fun b0 b1 => ?_, fun b0 => ?_⟩
  · exact ⟨_, _, _, _, rfl, isB64Char_encodeGroup b0 b1 b2 rfl⟩
  · obtain ⟨h0, h1, h2, -⟩ := isB64Char_encodeGroup b0 b1 0x00 (N := b0.toNat * 2 ^ 16 + b1.toNat * 2 ^ 8) (by simp)
    exact ⟨_, _, _, rfl, h0, h1, h2⟩
  · obtain ⟨h0, h1, -⟩ := isB64Char_encodeGroup b0 0x00 0x00 (N := b0.toNat * 2 ^ 16) (by simp)
    exact ⟨_, _, rfl, h0, h1⟩

/-! ## Decoded groups -/

theorem IsB64Char.ne_padChar {v : Nat} {ch : Byte} (h : IsB64Char v ch) : ch ≠ padChar := by
  obtain ⟨x, -, hx⟩ := h.exists_dec6
  exact (dec6_eq_some_iff_eq_enc6 ch x).mp hx ▸ enc6_ne_padChar x

/-- R99: a full group is decoded by itself, wherever it stands. -/
theorem base64Dec_group_eq_map (reject : Bool) {q0 q1 q2 q3 : Byte} {head : Bytes} (hq : q3 ≠ padChar)
    (hhead : decodeFull q0 q1 q2 q3 = some head) (rest : Bytes) :
    base64Dec reject (q0 :: q1 :: q2 :: q3 :: rest) = (base64Dec reject rest).map (head ++ ·) := by
  cases hrest : base64Dec reject rest with
  | some d => exact base64Dec_group hq hhead hrest
  | none =>
    cases rest with
    | nil => simp [base64Dec] at hrest
    | cons b bs => simp [base64Dec, hrest]

/-- A slice of a bit string in numbers. -/
theorem extractLsb'_eq_ofNat_div {w : Nat} (x : BitVec w) (start len : Nat) :
    x.extractLsb' start len = BitVec.ofNat len (x.toNat / 2 ^ start) := by
  rw [← Nat.shiftRight_eq_div_pow]
  rfl

/-- R99: four characters are the three bytes of their 24 bits. -/
theorem decodeFull_of_isB64Char {q0 q1 q2 q3 : Byte} {v0 v1 v2 v3 : Nat} (h0 : IsB64Char v0 q0)
    (h1 : IsB64Char v1 q1) (h2 : IsB64Char v2 q2) (h3 : IsB64Char v3 q3) :
    decodeFull q0 q1 q2 q3 =
      some [BitVec.ofNat 8 ((v0 * 2 ^ 18 + v1 * 2 ^ 12 + v2 * 2 ^ 6 + v3) / 2 ^ 16),
        BitVec.ofNat 8 ((v0 * 2 ^ 18 + v1 * 2 ^ 12 + v2 * 2 ^ 6 + v3) / 2 ^ 8),
        BitVec.ofNat 8 (v0 * 2 ^ 18 + v1 * 2 ^ 12 + v2 * 2 ^ 6 + v3)] := by
  obtain ⟨x0, rfl, hx0⟩ := h0.exists_dec6
  obtain ⟨x1, rfl, hx1⟩ := h1.exists_dec6
  obtain ⟨x2, rfl, hx2⟩ := h2.exists_dec6
  obtain ⟨x3, rfl, hx3⟩ := h3.exists_dec6
  have hbits : (x0 ++ x1 ++ x2 ++ x3).toNat =
      x0.toNat * 2 ^ 18 + x1.toNat * 2 ^ 12 + x2.toNat * 2 ^ 6 + x3.toNat := by
    simp only [toNat_append_eq_add]
    omega
  simp only [decodeFull, hx0, hx1, hx2, hx3, extractLsb'_eq_ofNat_div, hbits, pow_zero, Nat.div_one]

/-- R99: three characters are the first two bytes of their 18 bits, where the two bits left over are admitted. -/
theorem decodePad1_of_isB64Char (reject : Bool) {q0 q1 q2 : Byte} {v0 v1 v2 : Nat} (h0 : IsB64Char v0 q0)
    (h1 : IsB64Char v1 q1) (h2 : IsB64Char v2 q2) :
    decodePad1 reject q0 q1 q2 =
      if reject = true ∧ v2 % 4 ≠ 0 then none
      else some [BitVec.ofNat 8 ((v0 * 2 ^ 12 + v1 * 2 ^ 6 + v2) / 2 ^ 10),
        BitVec.ofNat 8 ((v0 * 2 ^ 12 + v1 * 2 ^ 6 + v2) / 2 ^ 2)] := by
  obtain ⟨x0, rfl, hx0⟩ := h0.exists_dec6
  obtain ⟨x1, rfl, hx1⟩ := h1.exists_dec6
  obtain ⟨x2, rfl, hx2⟩ := h2.exists_dec6
  have hbits : (x0 ++ x1 ++ x2).toNat = x0.toNat * 2 ^ 12 + x1.toNat * 2 ^ 6 + x2.toNat := by
    simp only [toNat_append_eq_add]
    omega
  have hunused : (x0 ++ x1 ++ x2).extractLsb' 0 2 = 0 ↔ x2.toNat % 4 = 0 := by
    rw [BitVec.extractLsb'_append_eq_of_add_le (by decide), ← BitVec.toNat_inj, BitVec.extractLsb'_toNat]
    rfl
  simp only [decodePad1, hx0, hx1, hx2, ne_eq, hunused]
  simp only [extractLsb'_eq_ofNat_div, hbits]

/-- R99: two characters are the first byte of their 12 bits, where the four bits left over are admitted. -/
theorem decodePad2_of_isB64Char (reject : Bool) {q0 q1 : Byte} {v0 v1 : Nat} (h0 : IsB64Char v0 q0)
    (h1 : IsB64Char v1 q1) :
    decodePad2 reject q0 q1 =
      if reject = true ∧ v1 % 16 ≠ 0 then none
      else some [BitVec.ofNat 8 ((v0 * 2 ^ 6 + v1) / 2 ^ 4)] := by
  obtain ⟨x0, rfl, hx0⟩ := h0.exists_dec6
  obtain ⟨x1, rfl, hx1⟩ := h1.exists_dec6
  have hbits : (x0 ++ x1).toNat = x0.toNat * 2 ^ 6 + x1.toNat := toNat_append_eq_add x0 x1
  have hunused : (x0 ++ x1).extractLsb' 0 4 = 0 ↔ x1.toNat % 16 = 0 := by
    rw [BitVec.extractLsb'_append_eq_of_add_le (by decide), ← BitVec.toNat_inj, BitVec.extractLsb'_toNat]
    rfl
  simp only [decodePad2, hx0, hx1, ne_eq, hunused]
  simp only [extractLsb'_eq_ofNat_div, hbits]

theorem base64Dec_pad1 (reject : Bool) {q0 q1 q2 : Byte} (hq : q2 ≠ padChar) :
    base64Dec reject [q0, q1, q2, 0x3D] = decodePad1 reject q0 q1 q2 :=
  if_neg hq

theorem base64Dec_pad2 (reject : Bool) (q0 q1 : Byte) :
    base64Dec reject [q0, q1, 0x3D, 0x3D] = decodePad2 reject q0 q1 :=
  rfl

/-- Settles O59: what each of the three shapes of a group decodes to, and where it may stand. -/
theorem decodedGroupsFollowTheTable : Obligations.DecodedGroupsFollowTheTable := by
  intro reject q0 q1 q2 q3 v0 v1 v2 v3 h0 h1 h2 h3
  refine ⟨base64Dec_group_eq_map reject h3.ne_padChar (decodeFull_of_isB64Char h0 h1 h2 h3), ?_, ?_⟩
  · exact (base64Dec_pad1 reject h2.ne_padChar).trans (decodePad1_of_isB64Char reject h0 h1 h2)
  · exact (base64Dec_pad2 reject q0 q1).trans (decodePad2_of_isB64Char reject h0 h1)

/-! ## What the commands and the whole texts answer -/

/-- R42: an operand of a legal opcode above `MAX_OPERAND_BYTES` is a length error. -/
theorem step_eLength_of_limit_lt {s : State} {op : Byte} {operand : Bytes} {rest : List HostEvent} {f : Format}
    {limit : Nat} (hf : formatOf op = some f) (hp : s.pending = .command (op :: operand) :: rest)
    (hmax : s.config.maxOperandBytes = some limit) (hlen : limit < operand.length) :
    step s = .next (respond .eLength [] (takeEvent rest s)) :=
  step_eLength_of_misfit hp hf (.inr ((operandFits_eq_false_iff _ _).mpr ⟨limit, hmax, hlen⟩))

/-- Settles O29: `B64ENC` reads no state, and only `MAX_OPERAND_BYTES` bounds its operand. -/
theorem b64encAnswersTheText : Obligations.B64encAnswersTheText :=
  ⟨fun _ _ => rfl, fun _ _ _ _ => step_eLength_of_limit_lt rfl⟩

theorem execB64dec_of_some {s : State} {text d : Bytes} (h : base64Dec s.config.b64RejectNoncanonical text = some d) :
    execB64dec text s = finish .ok d s := by
  simp [execB64dec, h]

theorem execB64dec_of_none {s : State} {text : Bytes} (h : base64Dec s.config.b64RejectNoncanonical text = none) :
    execB64dec text s = raise .eB64 s := by
  simp [execB64dec, h]

/-- Settles O30: the decoder's answer decides between the two responses, and the length check comes before it. -/
theorem b64decAnswersTheBytes : Obligations.B64decAnswersTheBytes :=
  ⟨fun _ _ _ h => execB64dec_of_some h, fun _ _ h => execB64dec_of_none h, fun _ _ _ _ => step_eLength_of_limit_lt rfl⟩

/-- Settles O41: whole groups give back their bits, and the bits that fill a short group are 0, so that the parameter
has no part in it. -/
theorem decodingUndoesEncoding : Obligations.DecodingUndoesEncoding :=
  base64Dec_base64Enc

/-! ## The texts that decode -/

/-- `t` is a text of R99 and `d` its bytes: full groups, and at the end at most one group with `=` or `==`. The bits of a
short group are filled up with zeros to 24; with `reject` all its bits after the last byte are 0. -/
inductive DecodesTo (reject : Bool) : Bytes → Bytes → Prop
  | nil : DecodesTo reject [] []
  | full (v : BitVec 24) {t d : Bytes} (rest : DecodesTo reject t d) :
    DecodesTo reject
      (enc6 (v.extractLsb' 18 6) :: enc6 (v.extractLsb' 12 6) :: enc6 (v.extractLsb' 6 6) ::
        enc6 (v.extractLsb' 0 6) :: t)
      (v.extractLsb' 16 8 :: v.extractLsb' 8 8 :: v.extractLsb' 0 8 :: d)
  | pad1 (v : BitVec 24) (unused : reject = true → v.extractLsb' 0 8 = 0) :
    DecodesTo reject
      [enc6 (v.extractLsb' 18 6), enc6 (v.extractLsb' 12 6), enc6 (v.extractLsb' 6 6), padChar]
      [v.extractLsb' 16 8, v.extractLsb' 8 8]
  | pad2 (v : BitVec 24) (unused : reject = true → v.extractLsb' 0 16 = 0) :
    DecodesTo reject [enc6 (v.extractLsb' 18 6), enc6 (v.extractLsb' 12 6), padChar, padChar] [v.extractLsb' 16 8]

/-- Where the four values of a group stand in its 24 bits. -/
theorem extractLsb'_sextets (x0 x1 x2 x3 : BitVec 6) :
    (x0 ++ x1 ++ x2 ++ x3).extractLsb' 18 6 = x0 ∧ (x0 ++ x1 ++ x2 ++ x3).extractLsb' 12 6 = x1 ∧
      (x0 ++ x1 ++ x2 ++ x3).extractLsb' 6 6 = x2 ∧ (x0 ++ x1 ++ x2 ++ x3).extractLsb' 0 6 = x3 := by
  have hhigh (start : Nat) : (x0 ++ x1 ++ x2 ++ x3).extractLsb' (start + 6) 6 = (x0 ++ x1 ++ x2).extractLsb' start 6 :=
    BitVec.extractLsb'_append_eq_of_le (Nat.le_add_left 6 start)
  refine ⟨(hhigh 12).trans ?_, (hhigh 6).trans ?_, (hhigh 0).trans BitVec.extractLsb'_append_eq_right,
    BitVec.extractLsb'_append_eq_right⟩ <;> rw [BitVec.extractLsb'_append_eq_of_le (by decide)]
  · exact BitVec.extractLsb'_append_eq_left
  · exact BitVec.extractLsb'_append_eq_right

/-- Zero bits put below low bits that are 0 leave the low bits 0. -/
theorem extractLsb'_append_zero {m : Nat} (n : Nat) {x : BitVec m} {k : Nat} (h : x.extractLsb' 0 k = 0) :
    (x ++ (0 : BitVec n)).extractLsb' 0 (k + n) = 0 := by
  have hx : x.toNat % 2 ^ k = 0 := congrArg BitVec.toNat h
  apply BitVec.eq_of_toNat_eq
  rw [BitVec.extractLsb'_toNat, toNat_append_eq_add, pow_add]
  simp [Nat.mul_mod_mul_right, hx]

theorem decodesTo_of_decodeFull {reject : Bool} {q0 q1 q2 q3 : Byte} {head t d : Bytes}
    (h : decodeFull q0 q1 q2 q3 = some head) (rest : DecodesTo reject t d) :
    DecodesTo reject (q0 :: q1 :: q2 :: q3 :: t) (head ++ d) := by
  unfold decodeFull at h
  split at h
  case h_2 => cases h
  case h_1 x0 x1 x2 x3 h0 h1 h2 h3 =>
    cases h
    rw [dec6_eq_some_iff_eq_enc6] at h0 h1 h2 h3
    obtain ⟨e0, e1, e2, e3⟩ := extractLsb'_sextets x0 x1 x2 x3
    have hfull := DecodesTo.full (x0 ++ x1 ++ x2 ++ x3) rest
    rwa [e0, e1, e2, e3, ← h0, ← h1, ← h2, ← h3] at hfull

theorem decodesTo_of_decodePad1 {reject : Bool} {q0 q1 q2 : Byte} {d : Bytes}
    (h : decodePad1 reject q0 q1 q2 = some d) : DecodesTo reject [q0, q1, q2, padChar] d := by
  unfold decodePad1 at h
  split at h
  case h_2 => cases h
  case h_1 x0 x1 x2 h0 h1 h2 =>
    obtain ⟨hunused, ⟨⟩⟩ := Option.ite_none_left_eq_some.mp h
    rw [dec6_eq_some_iff_eq_enc6] at h0 h1 h2
    obtain ⟨e0, e1, e2, -⟩ := extractLsb'_sextets x0 x1 x2 0
    have hpad := DecodesTo.pad1 (reject := reject) (x0 ++ x1 ++ x2 ++ 0) fun hreject =>
      extractLsb'_append_zero 6 (k := 2) (not_not.mp (not_and.mp hunused hreject))
    rw [e0, e1, e2, ← h0, ← h1, ← h2] at hpad
    rwa [BitVec.extractLsb'_append_eq_of_le (start := 16) (by decide),
      BitVec.extractLsb'_append_eq_of_le (start := 8) (by decide)] at hpad

theorem decodesTo_of_decodePad2 {reject : Bool} {q0 q1 : Byte} {d : Bytes}
    (h : decodePad2 reject q0 q1 = some d) : DecodesTo reject [q0, q1, padChar, padChar] d := by
  unfold decodePad2 at h
  split at h
  case h_2 => cases h
  case h_1 x0 x1 h0 h1 =>
    obtain ⟨hunused, ⟨⟩⟩ := Option.ite_none_left_eq_some.mp h
    rw [dec6_eq_some_iff_eq_enc6] at h0 h1
    obtain ⟨e0, e1, -, -⟩ := extractLsb'_sextets x0 x1 0 0
    have hpad := DecodesTo.pad2 (reject := reject) (x0 ++ x1 ++ 0 ++ 0) fun hreject =>
      extractLsb'_append_zero 6 (extractLsb'_append_zero 6 (k := 4) (not_not.mp (not_and.mp hunused hreject)))
    rw [e0, e1, ← h0, ← h1] at hpad
    rwa [BitVec.extractLsb'_append_eq_of_le (start := 16) (by decide),
      BitVec.extractLsb'_append_eq_of_le (w := 6) (by decide)] at hpad

theorem decodesTo_of_decodeLast {reject : Bool} {q0 q1 q2 q3 : Byte} {d : Bytes}
    (h : decodeLast reject q0 q1 q2 q3 = some d) : DecodesTo reject [q0, q1, q2, q3] d := by
  unfold decodeLast at h
  split at h
  next hq3 =>
    subst hq3
    split at h
    next hq2 => exact hq2 ▸ decodesTo_of_decodePad2 h
    next => exact decodesTo_of_decodePad1 h
  next => exact List.append_nil d ▸ decodesTo_of_decodeFull h .nil

/-- R99: only the texts of `DecodesTo` decode. -/
theorem decodesTo_of_base64Dec {reject : Bool} {t d : Bytes} (h : base64Dec reject t = some d) :
    DecodesTo reject t d := by
  induction t using base64Dec.induct reject generalizing d with
  | case1 =>
    cases h
    exact .nil
  | case2 q0 q1 q2 q3 => exact decodesTo_of_decodeLast h
  | case3 q0 q1 q2 q3 rest _ head tail htail hhead ih =>
    obtain rfl : head ++ tail = d := by simpa [base64Dec, hhead, htail] using h
    exact decodesTo_of_decodeFull hhead (ih htail)
  | case4 q0 q1 q2 q3 rest hrest hnone =>
    rw [base64Dec] at h
    · split at h
      next head tail hhead htail => exact (hnone head tail hhead htail).elim
      next => cases h
    · exact hrest
  | case5 t hnil hlast hgroup =>
    rw [base64Dec] at h
    · cases h
    · exact hnil
    · exact hlast
    · exact hgroup

/-- R97, R99: a text that decodes is characters of the alphabet and at most two `=` after them; four characters stand for
three bytes, `=` for none. -/
theorem DecodesTo.shape {reject : Bool} {t d : Bytes} (h : DecodesTo reject t d) :
    ∃ (vs : List (BitVec 6)) (pad : Nat), t = vs.map enc6 ++ List.replicate pad padChar ∧ pad ≤ 2 ∧
      4 * (d.length + pad) = 3 * t.length := by
  induction h with
  | nil => exact ⟨[], 0, rfl, by decide, rfl⟩
  | full v _ ih =>
    obtain ⟨vs, pad, rfl, hpad, hlen⟩ := ih
    refine ⟨_ :: _ :: _ :: _ :: vs, pad, rfl, hpad, ?_⟩
    simp only [List.length_cons] at hlen ⊢
    omega
  | pad1 v => exact ⟨[_, _, _], 1, rfl, by decide, rfl⟩
  | pad2 v => exact ⟨[_, _], 2, rfl, by decide, rfl⟩

/-! ## Encoding what a text decodes to -/

/-- The three bytes of a group are its 24 bits. -/
theorem append_extractLsb'_bytes (v : BitVec 24) :
    v.extractLsb' 16 8 ++ v.extractLsb' 8 8 ++ v.extractLsb' 0 8 = v := by
  repeat rw [BitVec.extractLsb'_append_extractLsb'_eq_extractLsb' (by rfl)]
  exact BitVec.extractLsb'_eq_self

theorem encodeGroup_extractLsb' (v : BitVec 24) :
    encodeGroup (v.extractLsb' 16 8) (v.extractLsb' 8 8) (v.extractLsb' 0 8) =
      (enc6 (v.extractLsb' 18 6), enc6 (v.extractLsb' 12 6), enc6 (v.extractLsb' 6 6), enc6 (v.extractLsb' 0 6)) := by
  rw [encodeGroup, append_extractLsb'_bytes]

theorem DecodesTo.base64Enc_eq {t d : Bytes} (h : DecodesTo true t d) : base64Enc d = t := by
  induction h with
  | nil => rfl
  | full v _ ih => rw [base64Enc, encodeGroup_extractLsb', ih]
  | pad1 v unused =>
    have hgroup := encodeGroup_extractLsb' v
    rw [unused rfl] at hgroup
    rw [base64Enc, hgroup]
  | pad2 v unused =>
    have hgroup := encodeGroup_extractLsb' v
    have h1 : v.extractLsb' 8 8 = 0 := extractLsb'_eq_zero_of_slice (start' := 8) (unused rfl) (by decide)
    have h2 : v.extractLsb' 0 8 = 0 := extractLsb'_eq_zero_of_slice (start' := 0) (unused rfl) (by decide)
    rw [h1, h2] at hgroup
    rw [base64Enc, hgroup]

/-- Settles O42: where unused bits are 0, a text is the characters of its bytes. -/
theorem encodingUndoesDecoding : Obligations.EncodingUndoesDecoding :=
  fun _ _ h => (decodesTo_of_base64Dec h).base64Enc_eq

/-! ## Lengths and padding -/

theorem count_padChar (vs : List (BitVec 6)) (pad : Nat) :
    (vs.map enc6 ++ List.replicate pad padChar).count padChar = pad := by
  have hvs : padChar ∉ vs.map enc6 := by simpa using fun v _ => enc6_ne_padChar v
  rw [List.count_append, List.count_eq_zero.mpr hvs, List.count_replicate_self, Nat.zero_add]

/-- R102: four characters stand for three bytes, a padding character for none. -/
theorem length_add_count_of_base64Dec {reject : Bool} {t d : Bytes} (h : base64Dec reject t = some d) :
    4 * (d.length + t.count padChar) = 3 * t.length := by
  obtain ⟨vs, pad, rfl, -, hlen⟩ := (decodesTo_of_base64Dec h).shape
  rwa [count_padChar]

/-- Settles O43: the number of padding characters of an encoded text follows from its length, because it decodes. -/
theorem b64TextLengths : Obligations.B64TextLengths := by
  refine ⟨fun d => ⟨base64Enc_length d, ?_⟩, fun reject t d m hm h => ?_, fun F n hF => hF ▸ base64Enc_length F⟩
  · have hlen := length_add_count_of_base64Dec (base64Dec_base64Enc true d)
    rw [base64Enc_length, padChar] at hlen
    omega
  · have hlen := length_add_count_of_base64Dec h
    rw [padChar] at hlen
    omega

/-! ## Malformed texts -/

/-- R97: the 64 codes of the alphabet. -/
theorem IsB64Char.mem_codes {v : Nat} {ch : Byte} (h : IsB64Char v ch) :
    (0x41 ≤ ch.toNat ∧ ch.toNat ≤ 0x5A) ∨ (0x61 ≤ ch.toNat ∧ ch.toNat ≤ 0x7A) ∨
      (0x30 ≤ ch.toNat ∧ ch.toNat ≤ 0x39) ∨ ch = 0x2B ∨ ch = 0x2F := by
  unfold IsB64Char at h
  bv_omega

/-- R99: a text without `=` is full groups only, so the parameter has no part in it and a text after it is decoded by
itself. -/
theorem DecodesTo.base64Dec_append {reject : Bool} {t d : Bytes} (h : DecodesTo reject t d) (hpad : padChar ∉ t)
    (reject' : Bool) (u : Bytes) : base64Dec reject' (t ++ u) = (base64Dec reject' u).map (d ++ ·) := by
  induction h with
  | nil => simp
  | full v _ ih =>
    have hrest := ih fun hmem => hpad (by simp [hmem])
    have hgroup := base64Dec_group_eq_map reject' (enc6_ne_padChar _) (decodeFull_enc6 v)
    simp only [List.cons_append, hgroup, hrest, Option.map_map]
    rfl
  | pad1 v => simp at hpad
  | pad2 v => simp at hpad

theorem getElem?_eq_padChar_iff (vs : List (BitVec 6)) (pad i : Nat) :
    (vs.map enc6 ++ List.replicate pad padChar)[i]? = some padChar ↔ vs.length ≤ i ∧ i < vs.length + pad := by
  by_cases hi : i < vs.length
  · simp [List.getElem?_append_left, hi, enc6_ne_padChar]
  · rw [List.getElem?_append_right (by simpa using hi), List.getElem?_replicate,
      Option.ite_none_right_eq_some, List.length_map]
    simp only [and_true]
    omega

/-- R97, R99: a text that decodes holds the 65 codes only. -/
theorem DecodesTo.mem_codes {reject : Bool} {t d : Bytes} (h : DecodesTo reject t d) {b : Byte} (hb : b ∈ t) :
    (0x41 ≤ b.toNat ∧ b.toNat ≤ 0x5A) ∨ (0x61 ≤ b.toNat ∧ b.toNat ≤ 0x7A) ∨
      (0x30 ≤ b.toNat ∧ b.toNat ≤ 0x39) ∨ b = 0x2B ∨ b = 0x2F ∨ b = 0x3D := by
  obtain ⟨vs, pad, rfl, -, -⟩ := h.shape
  obtain hb | hb := List.mem_append.mp hb
  · obtain ⟨v, -, rfl⟩ := List.mem_map.mp hb
    have hv := (isB64Char_enc6 v).mem_codes
    tauto
  · simp [List.eq_of_mem_replicate hb, padChar]

/-- R99: in a text that decodes `=` stands in the last two positions only, and only `=` after it. -/
theorem DecodesTo.padChar_at {reject : Bool} {t d : Bytes} (h : DecodesTo reject t d) {i : Nat}
    (hi : t[i]? = some padChar) : t.length ≤ i + 2 ∧ (i + 1 < t.length → t[i + 1]? = some padChar) := by
  obtain ⟨vs, pad, rfl, hpad, -⟩ := h.shape
  have hlength : (vs.map enc6 ++ List.replicate pad padChar).length = vs.length + pad := by simp
  rw [getElem?_eq_padChar_iff] at hi ⊢
  omega

/-- Settles O44: a text that decodes has none of the four faults; and where a text without `=` stands before a short
group, it is the group that decides. -/
theorem malformedTextsDoNotDecode : Obligations.MalformedTextsDoNotDecode := by
  refine ⟨fun reject t hbad => ?_, fun t d q0 q1 q2 v0 v1 v2 h hpad h0 h1 h2 hunused => ?_,
    fun t d q0 q1 v0 v1 h hpad h0 h1 hunused => ?_⟩
  · by_contra hsome
    obtain ⟨d, hd⟩ := Option.ne_none_iff_exists'.mp hsome
    have h := decodesTo_of_base64Dec hd
    obtain hmod | ⟨b, hb, hcode⟩ | ⟨i, hi, heq⟩ | ⟨i, hi, heq, hne⟩ := hbad
    · have hlen := length_add_count_of_base64Dec hd
      omega
    · exact hcode (h.mem_codes hb)
    · exact absurd (h.padChar_at heq).1 (by omega)
    · exact hne ((h.padChar_at heq).2 (by omega))
  · have happend := fun reject => (decodesTo_of_base64Dec h).base64Dec_append hpad reject [q0, q1, q2, 0x3D]
    simp only [base64Dec_pad1 _ h2.ne_padChar, decodePad1_of_isB64Char _ h0 h1 h2] at happend
    exact ⟨(happend true).trans (by rw [if_pos ⟨rfl, hunused⟩]; rfl), happend false⟩
  · have happend := fun reject => (decodesTo_of_base64Dec h).base64Dec_append hpad reject [q0, q1, 0x3D, 0x3D]
    simp only [base64Dec_pad2, decodePad2_of_isB64Char _ h0 h1] at happend
    exact ⟨(happend true).trans (by rw [if_pos ⟨rfl, hunused⟩]; rfl), happend false⟩

end Sys2Proof.Machine
end

section
/-!
SUPPORT. The exceptions (spec/60_exceptions.md): which commands are illegal, that no command stops the engine, what an
error leaves, RDSTAT, and several engines.
-/

namespace Sys2Proof.Machine

/-! ## Illegal commands -/

/-- R39, R41: an opcode has no format exactly when it is reserved. -/
theorem formatOf_eq_none_iff (op : Byte) : formatOf op = none ↔ op = 0x00 ∨ 0x0B ≤ op.toNat := by
  have hreserved : (op = 0x00 ∨ 0x0B ≤ op.toNat) ↔ ¬(0x01 ≤ op.toNat ∧ op.toNat ≤ 0x0A) := by bv_omega
  rw [hreserved, Option.eq_none_iff_forall_ne_some]
  constructor
  · rintro hnone ⟨h1, h10⟩
    obtain ⟨f, hf⟩ := exists_formatOf_eq_some h1 h10
    exact hnone f hf
  · exact fun hillegal f hf => hillegal (legal_of_formatOf_eq_some hf)

/-- R38, R39: an opcode with a format selects a command, whatever the operand. -/
theorem exists_splitFields_eq_some {op : Byte} {f : Format} (hf : formatOf op = some f) (operand : Bytes) :
    ∃ i, splitFields op operand = some i := by
  obtain ⟨h1, h10⟩ := legal_of_formatOf_eq_some hf
  obtain rfl | rfl | rfl | rfl | rfl | rfl | rfl | rfl | rfl | rfl := opcode_cases h1 h10 <;> exact ⟨_, rfl⟩

/-- R107: the opcode alone decides whether a command is illegal. -/
theorem decode_cons_eq_illegal_iff (c : Config) (op : Byte) (operand : Bytes) :
    decode c (op :: operand) = .error .illegal ↔ formatOf op = none := by
  cases hf : formatOf op with
  | none => simp only [decode, hf]
  | some f =>
    obtain ⟨i, hi⟩ := exists_splitFields_eq_some hf operand
    simp only [decode, hf, hi]
    split <;> simp

theorem decode_eq_illegal_iff (c : Config) (cmd : Bytes) :
    decode c cmd = .error .illegal ↔
      cmd = [] ∨ ∃ op operand, cmd = op :: operand ∧ (op = 0x00 ∨ 0x0B ≤ op.toNat) := by
  cases cmd with
  | nil => simp [decode]
  | cons op operand => rw [decode_cons_eq_illegal_iff, formatOf_eq_none_iff]; simp

/-- Settles O3: the decoder's illegal error is decided by the opcode, and the step raises it. -/
theorem illegalCommandsRaiseEIllegal : Obligations.IllegalCommandsRaiseEIllegal :=
  ⟨decode_eq_illegal_iff,
    fun s cmd _ hp hillegal => step_of_decode_error hp ((decode_eq_illegal_iff s.config cmd).mpr hillegal)⟩

/-! ## No command stops the engine -/

theorem exists_exec_eq_next (i : Instr) (s : State) : ∃ t, exec i s = .next t := by
  obtain ⟨e, -, hexec⟩ := exec_hasEffect i s
  exact ⟨e.apply s, hexec s (.refl s)⟩

theorem exists_step_eq_next (s : State) : ∃ t, step s = .next t := by
  obtain ⟨-, hs⟩ | ⟨rest, -, hs⟩ | ⟨cmd, rest, e, -, -, hs⟩ := step_cases s <;> exact ⟨_, hs⟩

theorem runsForever (s : State) : RunsForever s := by
  intro k
  have hstep (u : State) (_ : True) : ∃ t, step u = .next t ∧ True :=
    (exists_step_eq_next u).imp fun _ hu => ⟨hu, trivial⟩
  obtain ⟨t, ht, -⟩ := run_of_step_keeps hstep k s trivial
  exact ⟨t, ht⟩

/-- Settles O9: every command has an effect and every step one of the three outcomes of `step_cases`, all of them
states. -/
theorem everyStepAnswersAState : Obligations.EveryStepAnswersAState :=
  ⟨exists_exec_eq_next, runsForever⟩

/-! ## Errors -/

/-- A command adds one response, so what it adds tells which. -/
theorem Answered.unique {s t : State} {r r' : Response} (h : Answered s t r) (h' : Answered s t r') : r = r' :=
  List.singleton_inj.mp (List.append_cancel_left (h.symm.trans h'))

/-- R106, R118: of the sound effects only a bare answer is an error. -/
theorem Effect.Sound.eq_answer_of_error {e : Effect} {s : State} {r : Response} (h : e.Sound)
    (hr : Answered s (e.apply s) r) (herr : statusIsError r.status = true) : r.result = [] ∧ e = .answer r := by
  obtain rfl : e.response = r := (e.answered s).unique hr
  refine ⟨h.bare herr, ?_⟩
  cases e with
  | answer r => rfl
  | loadKey key => exact absurd herr (by decide : ¬statusIsError .ok = true)
  | setStream st r =>
    obtain ⟨hok, -⟩ := h
    exact absurd herr (Bool.eq_false_iff.mp hok)

theorem Effect.apply_answer (r : Response) (s : State) :
    (Effect.answer r).apply s = { s with responses := s.responses ++ [r] } := rfl

/-- An answer changes nothing that a command reads. -/
theorem SameView.apply_answer (r : Response) (s : State) : SameView s ((Effect.answer r).apply s) :=
  ⟨rfl, ⟨rfl, rfl⟩, rfl, rfl, rfl⟩

theorem step_command_hasEffect {s : State} {cmd : Bytes} {rest : List HostEvent}
    (hp : s.pending = .command cmd :: rest) :
    ∃ e : Effect, e.Sound ∧ step s = .next (e.apply (takeEvent rest s)) := by
  obtain ⟨hidle, -⟩ | ⟨rest', hreset, -⟩ | ⟨cmd', rest', e, hcmd, hsound, hs⟩ := step_cases s
  · simp [hp] at hidle
  · simp [hp] at hreset
  · obtain ⟨-, rfl⟩ : cmd = cmd' ∧ rest = rest' := by simpa [hp] using hcmd
    exact ⟨e, hsound, hs⟩

/-- Settles O11: the command has a sound effect, and one that answers an error is that answer and nothing else. -/
theorem errorsChangeNothing : Obligations.ErrorsChangeNothing := by
  intro s t cmd rest r hp hstep hr herr
  obtain ⟨e, hsound, hs⟩ := step_command_hasEffect hp
  obtain rfl : e.apply (takeEvent rest s) = t := by simpa [hs] using hstep
  obtain ⟨hresult, rfl⟩ := hsound.eq_answer_of_error hr herr
  exact ⟨by rw [responseBytes, hresult], Effect.apply_answer r _⟩

/-- Settles O12: the error's answer leaves all that the command reads, so the command has the same effect again. -/
theorem reissuedErrorFailsAgain : Obligations.ReissuedErrorFailsAgain := by
  intro i s t r hexec hr herr
  obtain ⟨e, hsound, heffect⟩ := exec_hasEffect i s
  obtain rfl : e.apply s = t := by simpa [heffect s (.refl s)] using hexec
  obtain ⟨-, rfl⟩ := hsound.eq_answer_of_error hr herr
  exact heffect _ (.apply_answer r s)

/-! ## RDSTAT -/

theorem flagByte_getLsbD (flag : Bool) (k : Nat) : (flagByte flag).getLsbD k = (decide (k = 0) && flag) := by
  cases flag <;> simp [flagByte, BitVec.getLsbD_one]

/-- R16: `WV` in bit 0, `CV` in bit 1, zeros above. -/
theorem statusByte_getLsbD (wv cv : Bool) (k : Nat) :
    (statusByte wv cv).getLsbD k = (decide (k = 0) && wv || decide (k = 1) && cv) := by
  match k with
  | 0 => cases wv <;> cases cv <;> rfl
  | 1 => cases wv <;> cases cv <;> rfl
  | k + 2 => simp [statusByte, flagByte_getLsbD]

/-- Settles O31: `RDSTAT` answers `statusByte`, and its format has room for the opcode only. -/
theorem rdstatAnswersTheFlags : Obligations.RdstatAnswersTheFlags := by
  refine ⟨fun s => ⟨statusByte s.wv s.cv, rfl, ?_, ?_, fun k hk => ?_⟩, fun s operand rest hp hne => ?_⟩
  · simpa using statusByte_getLsbD s.wv s.cv 0
  · simpa using statusByte_getLsbD s.wv s.cv 1
  · have h0 : k ≠ 0 := by omega
    have h1 : k ≠ 1 := by omega
    simp [statusByte_getLsbD, h0, h1]
  · have hfits : Format.z.fits (operand.length + 1) = false := by simpa [Format.fits] using hne
    exact step_eLength_of_misfit hp rfl (.inl hfits)

/-! ## Several engines -/

/-- Settles O56, by induction on the interleaving: its first step moves one engine, and the rest go on from there. -/
theorem instancesDoNotInterfere : Obligations.InstancesDoNotInterfere := by
  intro ks
  induction ks with
  | nil => exact fun engines k => (Option.map_id' (x := engines[k]?)).symm
  | cons j ks ih =>
    intro engines k
    calc (runInterleaved (j :: ks) engines)[k]?
        = ((stepInstance j engines)[k]?).map (stepTimes (ks.count k)) := ih (stepInstance j engines) k
      _ = (engines[k]?).map (stepTimes ((j :: ks).count k)) := by
        by_cases hjk : j = k
        · subst hjk
          simp [stepInstance, Function.comp_def, stepTimes]
        · simp [stepInstance, hjk]

end Sys2Proof.Machine
end

section
/-!
SUPPORT. Reset, and what reuse of a nonce, tampering and equivalent passwords do (spec/70_reset_and_hazards.md).
-/

namespace Sys2Proof.Machine

/-! ## Reset -/

theorem step_of_reset {s : State} {rest : List HostEvent} (hp : s.pending = .reset :: rest) :
    step s = .next (resetEngine (takeEvent rest s)) := by
  rw [step, nextWork_reset s rest hp]

/-- Settles O13: the registers and flags a reset leaves are those of the reset state. -/
theorem resetEventClearsTheRegisters : Obligations.ResetEventClearsTheRegisters :=
  fun _ _ hp => step_of_reset hp

/-- R14: a command loads a schedule or leaves `WV` as it is. -/
theorem Effect.apply_wv_of_wv (e : Effect) {s : State} (h : s.wv = true) : (e.apply s).wv = true := by
  cases e with
  | answer r => exact h
  | loadKey key => rfl
  | setStream st r => exact h

/-- Settles O14: of the three kinds of step, one changes nothing and one has the effect of a command. -/
theorem onlyResetClearsWv : Obligations.OnlyResetClearsWv := by
  intro s t hstep hs ht
  obtain ⟨-, hnext⟩ | ⟨rest, hp, -⟩ | ⟨cmd, rest, e, -, -, hnext⟩ := step_cases s
  · obtain rfl : s = t := by simpa [hnext] using hstep
    simp [hs] at ht
  · exact ⟨rest, hp⟩
  · obtain rfl : e.apply (takeEvent rest s) = t := by simpa [hnext] using hstep
    have hwv := e.apply_wv_of_wv (s := takeEvent rest s) hs
    simp [hwv] at ht

/-! ## The keystream is XORed in -/

/-- R134: one keystream block in both operands cancels. -/
theorem blockXor_blockXor_blockXor (p q k : Block) : blockXor (blockXor p k) (blockXor q k) = blockXor p q := by
  ext j hj
  rw [blockXor_getElem, blockXor_getElem, blockXor_getElem, blockXor_getElem, BitVec.xor_comm q[j], BitVec.xor_assoc,
    ← BitVec.xor_assoc k[j], BitVec.xor_self, BitVec.zero_xor]

theorem blockXor_right_comm (a b c : Block) : blockXor (blockXor a b) c = blockXor (blockXor a c) b := by
  ext j hj
  simp only [blockXor_getElem, BitVec.xor_assoc, BitVec.xor_comm b[j]]

/-- Settles O34: both outputs at `i` are XORed with the one keystream block of that index. -/
theorem nonceReuseCancelsTheKeystream : Obligations.NonceReuseCancelsTheKeystream := by
  intro W st ps qs i p q hp hq
  refine ⟨_, _, ?_, ?_, blockXor_blockXor_blockXor p q (keystream W st.nonce (st.ctr + BitVec.ofNat 64 i))⟩
  · rw [runBlocks_getElem?, hp, Option.map_some]
  · rw [runBlocks_getElem?, hq, Option.map_some]

/-- R138: a difference in the input is the same difference in the output. -/
theorem runBlocks_zipWith_blockXor (W : Schedule) (st : Stream) (bs ds : List Block) :
    (runBlocks W st (List.zipWith blockXor bs ds)).1 = List.zipWith blockXor (runBlocks W st bs).1 ds := by
  induction bs generalizing st ds with
  | nil => rfl
  | cons b bs ih =>
    cases ds with
    | nil => rfl
    | cons d ds => simp only [List.zipWith_cons_cons, runBlocks_cons, ih, blockXor_right_comm b d]

/-- Settles O35: the difference passes through the second run, which otherwise undoes the first. -/
theorem tamperingFlipsTheSameBits : Obligations.TamperingFlipsTheSameBits := by
  intro W st ps ds _
  rw [runBlocks_zipWith_blockXor, runBlocks_runBlocks]

/-! ## Equivalent passwords -/

/-- R83 to R85: `DERIVE` reads the password through `PadKey` only. -/
theorem exec_derive_congr {pw pw' : Bytes} (h : padKey pw = padKey pw') (s : State) :
    exec (.derive pw) s = exec (.derive pw') s := by
  simp only [exec, execDerive, deriveKey, h]

theorem fieldOf_take (n : Nat) (bytes : Bytes) : fieldOf n (bytes.take n) = fieldOf n bytes := by
  ext j hj
  simp [fieldOf_getElem, hj]

/-- A field is filled up with `0x00`, so such bytes at the end of what it is read from make no difference. -/
theorem fieldOf_append_zeros (n : Nat) (bytes : Bytes) (m : Nat) :
    fieldOf n (bytes ++ List.replicate m 0x00) = fieldOf n bytes := by
  ext j hj
  rw [fieldOf_getElem n _ j hj, fieldOf_getElem n _ j hj]
  rcases Nat.lt_or_ge j bytes.length with hlt | hge
  · rw [List.getD_append _ _ _ _ hlt]
  · rw [List.getD_append_right _ _ _ _ hge, List.getD_eq_default _ _ hge, List.getD_eq_getElem?_getD,
      List.getElem?_getD_replicate_default_eq]

/-- Settles O36: `PadKey` is the same for both passwords. -/
theorem equivalentPasswordsLoadTheSameKey : Obligations.EquivalentPasswordsLoadTheSameKey := by
  refine ⟨fun s pw pw' h => exec_derive_congr ?_ s, fun s pw n => exec_derive_congr (fieldOf_append_zeros 32 pw n) s⟩
  calc padKey pw = fieldOf 32 (pw.take 32) := (fieldOf_take 32 pw).symm
    _ = fieldOf 32 (pw'.take 32) := by rw [h]
    _ = padKey pw' := fieldOf_take 32 pw'

end Sys2Proof.Machine
end
